-- ==== Sys2Proof/Word.lean ====
section
/-! DEFINITION. The byte, the one word width of the gyan CORE (spec/00_scope.md R8: every register, memory cell and
stack cell holds an unsigned byte). -/
namespace Sys2Proof

/-- An unsigned byte 0..255 (R8); arithmetic on it is mod 256 and its order is the unsigned one. -/
abbrev Byte := BitVec 8

end Sys2Proof
end

