-- ==== Sys2Proof/Config.lean ====
section
/-! DEFINITION. The names the machine is spoken of in (registers, flags, opcodes, syscalls), the configuration object
`Constants` that binds them to codes (spec/00_scope.md R6), the example configuration CFG-EX (30_encoding.md R104), and
the free values of the model: the host's answers where nothing constrains them (45_sys.md R205). -/
namespace Sys2Proof

/-- The seven registers (R20). `None` is no register: an operand is an `Option Reg` (R10). -/
inductive Reg where
  | a | b | c | d | s | i | f
deriving DecidableEq, Repr

/-- The five flags packed into register F (R29). -/
inductive Flag where
  | l | g | e | z | n
deriving DecidableEq, Repr

/-- The eight opcode names (R100). -/
inductive Opcode where
  | imm | add | stk | stm | ldm | cmp | jmp | sys
deriving DecidableEq, Repr

/-- The six syscall names (R195). -/
inductive Syscall where
  | openFile | readCode | readMemory | write | sleep | exit
deriving DecidableEq, Repr

/-- `stack_policy` (R163): `checked` is the default, `wrap` the opt-in legacy mode. -/
inductive StackPolicy where
  | checked | wrap
deriving DecidableEq, Repr

/-- `C.reg` (R6, R22): one code for each register. -/
structure RegCodes where
  a : Byte
  b : Byte
  c : Byte
  d : Byte
  s : Byte
  i : Byte
  f : Byte
deriving DecidableEq, Repr

/-- `C.flag` (R6, R30): one bit value for each flag. -/
structure FlagCodes where
  l : Byte
  g : Byte
  e : Byte
  z : Byte
  n : Byte
deriving DecidableEq, Repr

/-- `C.op` (R6, R94): one code for each opcode. -/
structure OpCodes where
  imm : Byte
  add : Byte
  stk : Byte
  stm : Byte
  ldm : Byte
  cmp : Byte
  jmp : Byte
  sys : Byte
deriving DecidableEq, Repr

/-- A name that a `C.sys` map may hold: one of the six, or some other name, numbered, so that a map R195 rejects
("gives no code for any other name") can be written down. -/
inductive SysKey where
  | known (n : Syscall)
  | other (tag : Nat)
deriving DecidableEq, Repr

/-- `C.layout` (R91): the positions of the three fields in a word. -/
structure Layout where
  pOp : Nat
  pArg1 : Nat
  pArg2 : Nat
deriving DecidableEq, Repr

/-- The configuration object (R6): "immutable configuration object supplied at engine construction". `sys` is a map
given as its entries, because R195 rejects a map that lacks a name or holds another one (log 9). -/
structure Constants where
  reg : RegCodes
  flag : FlagCodes
  op : OpCodes
  sys : List (SysKey × Byte)
  layout : Layout
deriving DecidableEq, Repr

/-- CFG-EX (R104), the example configuration under which spec/opcode_table.json is written. It is not normative
(log 2). -/
def cfgEx : Constants where
  reg := { a := 0x01, b := 0x02, c := 0x04, d := 0x08, s := 0x10, i := 0x20, f := 0x40 }
  flag := { l := 0x01, g := 0x02, e := 0x04, n := 0x08, z := 0x10 }
  op := { imm := 0x01, add := 0x02, stk := 0x04, stm := 0x08, ldm := 0x10, cmp := 0x20, jmp := 0x40, sys := 0x80 }
  sys := [(.known .openFile, 0x01), (.known .readCode, 0x02), (.known .readMemory, 0x04), (.known .write, 0x08),
          (.known .sleep, 0x10), (.known .exit, 0x20)]
  layout := { pOp := 0, pArg1 := 1, pArg2 := 2 }

/-- The host's own error value e of `Err(e)` (R190), which the spec leaves to the host: numbered (log 15). -/
abbrev HostError := Nat

/-- Free value: the host's n-th unscripted answer to `Open(path)` (R205, D24; log 3). -/
opaque Config.freeOpen : Nat → List Byte → Except HostError Nat

/-- Free value: the host's n-th unscripted answer to `Read(fd, count)` (R205, D24; log 3). -/
opaque Config.freeRead : Nat → Byte → Nat → Except HostError (List Byte)

/-- Free value: the host's n-th unscripted answer to `Write(fd, data)` (R205, D24; log 3). -/
opaque Config.freeWrite : Nat → Byte → List Byte → Except HostError Nat

end Sys2Proof
end

