-- ==== Sys2Proof/Syntax.lean ====
section
/-! DEFINITION. The instructions of the gyan CORE: the closed set of eight variants of spec/30_encoding.md R100, one
constructor per row of spec/opcode_table.json, with the operands of R97 in the order the spec writes them. -/
namespace Sys2Proof

/-- A decoded instruction (R70, R100). A register operand is a register or `none`, the spec's None sentinel (R10, R98);
`imm8`, `condMask` and `code` are raw bytes (R96). -/
inductive Instr where
  | imm (dst : Option Reg) (imm8 : Byte)
  | add (a b : Option Reg)
  | stk (popDst pushSrc : Option Reg)
  | stm (addrReg valReg : Option Reg)
  | ldm (dst addrReg : Option Reg)
  | cmp (a b : Option Reg)
  | jmp (condMask : Byte) (targetReg : Option Reg)
  | sys (code : Byte) (resultReg : Option Reg)
deriving DecidableEq, Repr

/-- The variant of an instruction: "the discriminator of an `Instruction` variant" (R11). -/
def Instr.opcode : Instr → Opcode
  | .imm _ _ => .imm
  | .add _ _ => .add
  | .stk _ _ => .stk
  | .stm _ _ => .stm
  | .ldm _ _ => .ldm
  | .cmp _ _ => .cmp
  | .jmp _ _ => .jmp
  | .sys _ _ => .sys

end Sys2Proof
end

