-- ==== Sys2Proof/Decode.lean ====
section
/-! DEFINITION. Code lookups in `Constants`, the decoder and, after it, the encoder (spec/30_encoding.md R90 to R99). The
decoder is total on any bytes and rejects by name (R99, R102); READ_CODE reuses it (45_sys.md R200). -/
namespace Sys2Proof

/-- Why bytes, or a configuration, are rejected (R99, R221, R262). `opcode` and `register` record the offending byte. -/
inductive DecodeError where
  | config
  | opcode (v : Byte)
  | register (v : Byte)
  | partialWord
deriving DecidableEq, Repr

/-! ### Codes and lookups -/

/-- The seven registers. -/
def Reg.all : List Reg := [.a, .b, .c, .d, .s, .i, .f]

/-- The five flags. -/
def Flag.all : List Flag := [.l, .g, .e, .z, .n]

/-- The eight opcodes. -/
def Opcode.all : List Opcode := [.imm, .add, .stk, .stm, .ldm, .cmp, .jmp, .sys]

/-- The six syscalls. -/
def Syscall.all : List Syscall := [.openFile, .readCode, .readMemory, .write, .sleep, .exit]

/-- `C.reg[r]` (R21). -/
def Constants.regCode (C : Constants) : Reg → Byte
  | .a => C.reg.a
  | .b => C.reg.b
  | .c => C.reg.c
  | .d => C.reg.d
  | .s => C.reg.s
  | .i => C.reg.i
  | .f => C.reg.f

/-- `C.flag[f]` (R29). -/
def Constants.flagBit (C : Constants) : Flag → Byte
  | .l => C.flag.l
  | .g => C.flag.g
  | .e => C.flag.e
  | .z => C.flag.z
  | .n => C.flag.n

/-- `C.op[m]` (R94). -/
def Constants.opCode (C : Constants) : Opcode → Byte
  | .imm => C.op.imm
  | .add => C.op.add
  | .stk => C.op.stk
  | .stm => C.op.stm
  | .ldm => C.op.ldm
  | .cmp => C.op.cmp
  | .jmp => C.op.jmp
  | .sys => C.op.sys

/-- `C.sys[n]` (R195), none where the map gives the name no code. -/
def Constants.sysCode (C : Constants) (n : Syscall) : Option Byte := C.sys.lookup (.known n)

/-- The syscall whose code equals `code` exactly (R196: "dispatched by numeric code", never by bit set). -/
def Constants.syscallOf (C : Constants) (code : Byte) : Option Syscall :=
  Syscall.all.find? fun n => C.sysCode n == some code

/-- The opcode whose code is `v` (R93). -/
def Constants.opcodeOf (C : Constants) (v : Byte) : Option Opcode :=
  Opcode.all.find? fun m => C.opCode m == v

/-- The register whose code is `v` (R95). -/
def Constants.regOf (C : Constants) (v : Byte) : Option Reg :=
  Reg.all.find? fun r => C.regCode r == v

/-! ### Decoding -/

/-- A register operand byte (R95): 0x00 is None, a register's code is that register, anything else is rejected. -/
def decodeReg (C : Constants) (v : Byte) : Except DecodeError (Option Reg) :=
  if v = 0 then .ok none
  else match C.regOf v with
    | some r => .ok (some r)
    | none => .error (.register v)

/-- An instruction of two register operands (R97); when both bytes are bad, arg1 is reported (R99). -/
def decodeTwo (C : Constants) (a1 a2 : Byte) (mk : Option Reg → Option Reg → Instr) : Except DecodeError Instr :=
  match decodeReg C a1 with
  | .error e => .error e
  | .ok x =>
    match decodeReg C a2 with
    | .error e => .error e
    | .ok y => .ok (mk x y)

/-- An instruction with one register operand; the other operand is a raw byte (R96). -/
def decodeOne (C : Constants) (v : Byte) (mk : Option Reg → Instr) : Except DecodeError Instr :=
  match decodeReg C v with
  | .error e => .error e
  | .ok x => .ok (mk x)

/-- The three fields of a word to one instruction (R93, R97, R99). -/
def decodeFields (C : Constants) (op a1 a2 : Byte) : Except DecodeError Instr :=
  match C.opcodeOf op with
  | none => .error (.opcode op)
  | some .imm => decodeOne C a1 fun x => .imm x a2
  | some .add => decodeTwo C a1 a2 .add
  | some .stk => decodeTwo C a1 a2 .stk
  | some .stm => decodeTwo C a1 a2 .stm
  | some .ldm => decodeTwo C a1 a2 .ldm
  | some .cmp => decodeTwo C a1 a2 .cmp
  | some .jmp => decodeOne C a2 (.jmp a1)
  | some .sys => decodeOne C a2 (.sys a1)

/-- The byte of a word at a position (R91). A position above 2 is in no layout R262 accepts; it reads as 0 (log 10). -/
def byteAt (b0 b1 b2 : Byte) : Nat → Byte
  | 0 => b0
  | 1 => b1
  | 2 => b2
  | _ => 0

/-- The first instruction of a byte stream, with the bytes after it (R90, R99). Fewer than three bytes are a partial
word (R90, R102). -/
def decode (C : Constants) : List Byte → Except DecodeError (Instr × List Byte)
  | b0 :: b1 :: b2 :: rest =>
    match decodeFields C (byteAt b0 b1 b2 C.layout.pOp) (byteAt b0 b1 b2 C.layout.pArg1)
        (byteAt b0 b1 b2 C.layout.pArg2) with
    | .ok i => .ok (i, rest)
    | .error e => .error e
  | _ => .error .partialWord

/-- The words of a stream one after the other (R90); the first bad word in stream order is reported (log 11). -/
def decodeWords (C : Constants) : List Byte → Except DecodeError (List Instr)
  | [] => .ok []
  | b0 :: b1 :: b2 :: rest =>
    match decode C [b0, b1, b2] with
    | .error e => .error e
    | .ok (i, _) =>
      match decodeWords C rest with
      | .error e => .error e
      | .ok is => .ok (i :: is)
  | _ => .error .partialWord

/-- A whole byte stream to instructions, as READ_CODE decodes it (R200): the length is checked first. -/
def decodeStream (C : Constants) (bytes : List Byte) : Except DecodeError (List Instr) :=
  if bytes.length % 3 = 0 then decodeWords C bytes else .error .partialWord

/-! ### Encoding -/

/-- The byte of a register operand (R95): 0x00 for None (D6). -/
def encodeReg (C : Constants) : Option Reg → Byte
  | none => 0
  | some r => C.regCode r

/-- The byte of operand arg1 (R97). -/
def encodeArg1 (C : Constants) : Instr → Byte
  | .imm dst _ => encodeReg C dst
  | .add x _ => encodeReg C x
  | .stk popDst _ => encodeReg C popDst
  | .stm addrReg _ => encodeReg C addrReg
  | .ldm dst _ => encodeReg C dst
  | .cmp x _ => encodeReg C x
  | .jmp condMask _ => condMask
  | .sys code _ => code

/-- The byte of operand arg2 (R97). -/
def encodeArg2 (C : Constants) : Instr → Byte
  | .imm _ imm8 => imm8
  | .add _ y => encodeReg C y
  | .stk _ pushSrc => encodeReg C pushSrc
  | .stm _ valReg => encodeReg C valReg
  | .ldm _ addrReg => encodeReg C addrReg
  | .cmp _ y => encodeReg C y
  | .jmp _ targetReg => encodeReg C targetReg
  | .sys _ resultReg => encodeReg C resultReg

/-- The byte that stands at position `p` of the word (R91). -/
def encodeAt (C : Constants) (i : Instr) (p : Nat) : Byte :=
  if p = C.layout.pOp then C.opCode i.opcode
  else if p = C.layout.pArg1 then encodeArg1 C i
  else encodeArg2 C i

/-- The three bytes of an instruction in stream order (R90, R91, R97). -/
def encode (C : Constants) (i : Instr) : List Byte := [encodeAt C i 0, encodeAt C i 1, encodeAt C i 2]

/-! ### Words as spec/opcode_table.json numbers them -/

/-- The bytes, in stream order, of a word numbered as the table numbers it (R92): `w = b0 * 65536 + b1 * 256 + b2`, so
b0 is `w[23:16]`. Bits at and above `nbits` are 0 (log 7). -/
def wordBytes (nbits w : Nat) : List Byte :=
  let v := w % 2 ^ nbits
  [BitVec.ofNat 8 (v / 65536), BitVec.ofNat 8 (v / 256), BitVec.ofNat 8 v]

/-- The instruction the decoder reads, under `C`, from a table word; no instruction is longer than 24 bits (R103). -/
def decodeWordWith (C : Constants) (nbits w : Nat) : Option Instr :=
  if 24 < nbits then none
  else match decode C (wordBytes nbits w) with
    | .ok (i, _) => some i
    | .error _ => none

/-- The instruction the decoder reads from a word of spec/opcode_table.json, which is written under CFG-EX (R92,
R104; log 7). -/
def decodeTableWord (nbits w : Nat) : Option Instr := decodeWordWith cfgEx nbits w

end Sys2Proof
end

