-- ==== Sys2Proof/Machine/Validate.lean ====
section
/-! DEFINITION. The validation of `Constants` at construction (spec/70_reset_and_hazards.md R262, checks 1 to 5) and the
register slots that follow from a valid `C.reg` (10_state.md R23). -/
namespace Sys2Proof.Machine

/-- A byte with exactly one bit set: one of 0x01, 0x02, 0x04, .., 0x80 (R22). -/
def singleBit (v : Byte) : Bool := (List.range 8).any fun k => v == BitVec.ofNat 8 (2 ^ k)

/-- Pairwise distinct bytes. -/
def distinct (l : List Byte) : Bool := decide l.Nodup

/-- Check 1 of R262 (R22). -/
def regsValid (C : Constants) : Bool :=
  (Reg.all.map C.regCode).all singleBit && distinct (Reg.all.map C.regCode)

/-- Check 2 of R262 (R30). -/
def flagsValid (C : Constants) : Bool :=
  (Flag.all.map C.flagBit).all singleBit && distinct (Flag.all.map C.flagBit)

/-- Check 3 of R262 (R94): any eight bytes, pairwise distinct. -/
def opsValid (C : Constants) : Bool := distinct (Opcode.all.map C.opCode)

/-- Check 4 of R262 (R195): exactly the six names, each with one entry (log 9), and six distinct codes. -/
def sysValid (C : Constants) : Bool :=
  C.sys.length == 6 && Syscall.all.all (fun n => (C.sys.map Prod.fst).contains (.known n)) &&
    distinct (C.sys.map Prod.snd)

/-- Check 5 of R262 (R91): the layout is a permutation of (0, 1, 2). -/
def layoutValid (C : Constants) : Bool :=
  [0, 1, 2].all fun p => [C.layout.pOp, C.layout.pArg1, C.layout.pArg2].contains p

/-- `Constants` passes validation (R262). -/
def configValid (C : Constants) : Bool :=
  regsValid C && flagsValid C && opsValid C && sysValid C && layoutValid C

/-- `slot(r) = ctz(C.reg[r])` (R23): the count of trailing zero bits of the register's code. -/
def slotOf (C : Constants) (r : Reg) : Nat :=
  ((List.range 8).find? fun k => (C.regCode r).getLsbD k).getD 8

end Sys2Proof.Machine
end

