-- ==== Sys2Proof/Machine/Flags.lean ====
section
/-! DEFINITION. The flag computation of CMP and the test of JMP (spec/44_cmp_jmp.md R180, R182). -/
namespace Sys2Proof.Machine

/-- A bit pattern, or none of it. -/
def bitsIf (p : Prop) [Decidable p] (v : Byte) : Byte := if p then v else 0

/-- The whole new F of CMP (R180): from scratch, all comparisons unsigned (D10). -/
def cmpFlags (C : Constants) (va vb : Byte) : Byte :=
  bitsIf (va < vb) (C.flagBit .l ||| C.flagBit .n) ||| bitsIf (va > vb) (C.flagBit .g ||| C.flagBit .n) |||
    bitsIf (va = vb) (C.flagBit .e) ||| bitsIf (va = 0 ∧ vb = 0) (C.flagBit .z)

/-- JMP's condition (R182): the raw bits of F under the mask; a zero mask is never taken. -/
def jumpTaken (f mask : Byte) : Bool := f &&& mask != 0

end Sys2Proof.Machine
end

