-- ==== Sys2Proof/Machine/State.lean ====
section
/-! DEFINITION. The state of the gyan CORE as plain data (spec/10_state.md R37), the outcome latch and its faults
(60_exceptions.md R220, R221), the host port's messages (45_sys.md R190), the reasons a step of the model can stop, and
construction and reset (10_state.md R38, 70_reset_and_hazards.md R260, R262). -/
namespace Sys2Proof.Machine

/-- An operand position (R97), as InvalidOperand records it (R221). -/
inductive OperandPos where
  | arg1 | arg2
deriving DecidableEq, Repr

/-- The faults of R221 with the information each records. They are latched outcomes of the block, states that a step
reaches (R220, R228), not stops of the model. -/
inductive FaultKind where
  | programCounterOutOfRange (index : Byte)
  | invalidOperand (op : Opcode) (pos : OperandPos)
  | stackOverflow (sp : Byte)
  | stackUnderflow (sp : Byte)
  | outOfBounds (start len : Nat)
  | unsupportedSyscall (code : Byte)
  | fileDescriptorOverflow (fd : Nat)
  | hostIoError (e : HostError)
  | decodeError (kind : DecodeError)
deriving DecidableEq, Repr

/-- The outcome latch (R34, R220). -/
inductive Latch where
  | running
  | halted (code : Byte)
  | faulted (kind : FaultKind)
deriving DecidableEq, Repr

/-- The requests of the host port (R190). EXIT sends none. -/
inductive HostRequest where
  | openFile (path : List Byte)
  | readFile (fd : Byte) (count : Nat)
  | writeFile (fd : Byte) (data : List Byte)
  | sleep (secs : Byte)
deriving DecidableEq, Repr

/-- What the host does with a request (R190): the four kinds of `Ok`, `Err(e)`, or no answer ever (R205). -/
inductive HostResponse where
  | opened (fd : Nat)
  | data (bytes : List Byte)
  | wrote (count : Nat)
  | slept
  | err (e : HostError)
  | silent
deriving DecidableEq, Repr

/-- The seven one-byte cells (R20, R25); R23 lets a model name them (log 8). -/
structure Regs where
  a : Byte
  b : Byte
  c : Byte
  d : Byte
  s : Byte
  i : Byte
  f : Byte
deriving DecidableEq, Repr

/-- A 256-byte array, data memory (R61) or stack (R64): the cells that do not hold 0x00, addresses strictly rising. An
unlisted address reads 0x00, the spec's reset value (R38; log 14). -/
abbrev Memory := List Host.Cell

/-- The machine's state (R37) with the inputs latched at construction (D2; log 1) and the host port (R190; log 3).
`ProgLen` is the length of `prog` (R35). -/
structure State where
  /-- The registers A, B, C, D, S, I, F (R20). -/
  regs : Regs
  /-- Data memory (R61). -/
  mem : Memory
  /-- The stack array, addressed by S (R64). -/
  stk : Memory
  /-- The instruction store, indexed by I (R70). -/
  prog : List Instr
  /-- The outcome latch (R34). -/
  outcome : Latch
  /-- The arbiter's descriptor table (R36), strictly ascending (log 17). -/
  fdtable : List Nat
  /-- `Constants`, never changed during a run (R6). -/
  cfg : Constants
  /-- `stack_policy` (R163). -/
  policy : StackPolicy
  /-- The host's answers still to come, oldest first (R190, R205; log 3). -/
  hostIn : List HostResponse
  /-- The requests issued so far, oldest first (R190; log 3). -/
  hostOut : List HostRequest
  /-- How many free answers have been drawn (log 3). -/
  freeDraws : Nat
deriving DecidableEq, Repr

/-- Why a step of the model stops. -/
inductive Fault where
  /-- Raised by `step` when the block has halted: "no further instructions execute" (R34, R228). Safe. -/
  | blockHalted (code : Byte)
  /-- Raised by `step` when the block has faulted: no later step runs (R34, R228). Safe. -/
  | blockFaulted (kind : FaultKind)
  /-- Raised by a SYS whose host request never completes: the step is left unfinished forever (R205). Safe. -/
  | hostNeverAnswers (req : HostRequest)
deriving DecidableEq, Repr

/-- Why the model gives a step no meaning. -/
inductive Refusal where
  /-- Raised by an arm of `exec` for an instruction without a meaning: none is left. Safe. -/
  | notModelled (mnemonic : String)
  /-- Raised by a SYS whose host answered outside R190's ranges: "a model refuses such a response" (R205). Safe. -/
  | hostOutsideContract (req : HostRequest) (resp : HostResponse)
deriving DecidableEq, Repr

/-- All registers 0x00 (R38). -/
def Regs.zero : Regs := { a := 0, b := 0, c := 0, d := 0, s := 0, i := 0, f := 0 }

/-- Construction of the block for a new run (R38, R260) with R262's validation. -/
def State.construct (C : Constants) (policy : StackPolicy) (prog : List Instr) : State where
  regs := Regs.zero
  mem := []
  stk := []
  prog := prog
  outcome := if configValid C then .running else .faulted (.decodeError .config)
  fdtable := []
  cfg := C
  policy := policy
  hostIn := []
  hostOut := []
  freeDraws := 0

/-- The machine right after reset: constructed with CFG-EX, the default policy and no program (log 2). -/
def State.reset : State := State.construct cfgEx .checked []

end Sys2Proof.Machine
end

