-- ==== Sys2Proof/Machine/Ops.lean ====
section
/-! DEFINITION. The named operations the meanings are written over: registers and slots, data memory and the stack
array, the instruction store and the fetch, the host port, and taking a fault or a halt. -/
namespace Sys2Proof.Machine

/-- What a meaning answers. -/
abbrev Result := Host.Outcome State Fault Refusal

/-! ### Registers (spec/10_state.md R20 to R28) -/

/-- `read(name)` of the register file (R21). -/
def Regs.get (x : Regs) : Reg → Byte
  | .a => x.a
  | .b => x.b
  | .c => x.c
  | .d => x.d
  | .s => x.s
  | .i => x.i
  | .f => x.f

/-- `write(name, byte)` of the register file (R21): no register is hardwired or read-only (R24). -/
def Regs.set (x : Regs) (r : Reg) (v : Byte) : Regs :=
  match r with
  | .a => { x with a := v }
  | .b => { x with b := v }
  | .c => { x with c := v }
  | .d => { x with d := v }
  | .s => { x with s := v }
  | .i => { x with i := v }
  | .f => { x with f := v }

/-- `x[r]` (R9). -/
def State.reg (s : State) (r : Reg) : Byte := s.regs.get r

/-- `x[r] <- v` (R9). -/
def State.setReg (s : State) (r : Reg) (v : Byte) : State := { s with regs := s.regs.set r v }

/-- The eight physical slots as a view of the named registers (R23): slot k holds the register bound to it; the slot no
register maps to reads 0x00 (R38). -/
def State.slotValue (s : State) (k : Nat) : Byte :=
  match Reg.all.find? fun r => slotOf s.cfg r == k with
  | some r => s.reg r
  | none => 0

/-! ### Data memory and the stack array (spec/20_memory.md R60 to R68) -/

/-- The canonical form: addresses below 256 and strictly rising, no entry equal to what an unlisted address reads as. -/
def Memory.wf (m : Memory) : Bool :=
  decide (m.Pairwise fun x y => x.1 < y.1) && m.all fun c => decide (c.1 < 256) && c.2 != 0

/-- What a cell that no entry lists reads as: the reset value (R38, R67; log 14). -/
def unlistedByte : Byte := 0

/-- One cell of a memory. -/
def Memory.read (m : Memory) (addr : Nat) : Byte :=
  match m.find? fun c => c.1 == addr with
  | some c => c.2
  | none => unlistedByte

/-- An entry put before the first entry of a higher address. -/
def Memory.place (m : Memory) (c : Host.Cell) : Memory :=
  match m with
  | [] => [c]
  | d :: t => if c.1 < d.1 then c :: d :: t else d :: Memory.place t c

/-- One cell written; writing the value an unlisted cell reads as removes the entry. -/
def Memory.write (m : Memory) (addr : Nat) (v : Byte) : Memory :=
  let others := m.filter fun c => c.1 != addr
  if v = unlistedByte then others else Memory.place others (addr, v)

/-- Consecutive cells from `start`, in increasing address order (R65). -/
def Memory.readMany (m : Memory) (start n : Nat) : List Byte :=
  (List.range n).map fun k => Memory.read m (start + k)

/-- Bytes written to consecutive cells from `start`, byte k at `start + k` (R65). -/
def Memory.writeMany (m : Memory) (start : Nat) : List Byte → Memory
  | [] => m
  | v :: vs => Memory.writeMany (Memory.write m start v) (start + 1) vs

/-- `MemRead(addr, 1)` (R62). -/
def State.memByte (s : State) (addr : Byte) : Byte := Memory.read s.mem addr.toNat

/-- `MemWrite(addr, 1, v)` (R62). -/
def State.setMemByte (s : State) (addr v : Byte) : State := { s with mem := Memory.write s.mem addr.toNat v }

/-- `StkRead(idx)` (R9, R64). -/
def State.stkByte (s : State) (idx : Byte) : Byte := Memory.read s.stk idx.toNat

/-- `StkWrite(idx, v)` (R9, R64). -/
def State.setStkByte (s : State) (idx v : Byte) : State := { s with stk := Memory.write s.stk idx.toNat v }

/-- A byte range of data memory runs past its end (R63): the sum is an unbounded integer. -/
def outOfRange (start n : Nat) : Bool := decide (256 < start + n)

/-- `MemReadRange(start, n)` (R63): checked before any byte is read. -/
def State.memReadRange (s : State) (start n : Nat) : Except FaultKind (List Byte) :=
  if outOfRange start n then .error (.outOfBounds start n) else .ok (Memory.readMany s.mem start n)

/-- Bytes written from `start` on, byte k at `start + k` (R65), with no check. -/
def State.putBytes (s : State) (start : Nat) (bytes : List Byte) : State :=
  { s with mem := Memory.writeMany s.mem start bytes }

/-- `MemWriteRange(start, bytes)` (R63): checked before any byte is written. -/
def State.memWriteRange (s : State) (start : Nat) (bytes : List Byte) : Except FaultKind State :=
  if outOfRange start bytes.length then .error (.outOfBounds start bytes.length)
  else .ok (s.putBytes start bytes)

/-- The bytes from address `k` up to the first 0x00, none where `fuel` cells hold none (45_sys.md R199). -/
def Memory.scan (m : Memory) : Nat → Nat → Option (List Byte)
  | 0, _ => none
  | fuel + 1, k =>
    if Memory.read m k = 0 then some []
    else match Memory.scan m fuel (k + 1) with
      | some rest => some (Memory.read m k :: rest)
      | none => none

/-- `ReadCString(a)` (45_sys.md R199): the scan ends at address 0xFF and does not wrap. -/
def State.readCString (s : State) (addr : Byte) : Except FaultKind (List Byte) :=
  match Memory.scan s.mem (256 - addr.toNat) addr.toNat with
  | some path => .ok path
  | none => .error (.outOfBounds addr.toNat (256 - addr.toNat))

/-! ### Taking a fault or a halt (spec/60_exceptions.md R220, R226, R228) -/

/-- The outcome latch set (R34). -/
def State.latch (s : State) (o : Latch) : State := { s with outcome := o }

/-- `raise <Fault>(info)` (R9): a fault is terminal; it sets the outcome latch and saves, masks and vectors nothing
(R228). The step ends in the state with the latch set. -/
def raise (k : FaultKind) (s : State) : Result := .next (s.latch (.faulted k))

/-- `halt(code)` (R9, R222): terminal and no fault. -/
def halt (code : Byte) (s : State) : Result := .next (s.latch (.halted code))

/-- The numeric outcome of the status port (R221, D41). -/
def Latch.statusCode : Latch → Nat
  | .running => 0
  | .halted _ => 1
  | .faulted (.programCounterOutOfRange _) => 2
  | .faulted (.invalidOperand _ _) => 3
  | .faulted (.stackOverflow _) => 4
  | .faulted (.stackUnderflow _) => 5
  | .faulted (.outOfBounds _ _) => 6
  | .faulted (.unsupportedSyscall _) => 7
  | .faulted (.fileDescriptorOverflow _) => 8
  | .faulted (.hostIoError _) => 9
  | .faulted (.decodeError _) => 10

/-! ### The instruction store and the fetch (spec/20_memory.md R70, spec/40_engine.md R131, R132) -/

/-- `ProgLen` (R35). -/
def State.progLen (s : State) : Nat := s.prog.length

/-- `Prog[x[I]]`, none where I is at or beyond `ProgLen` (R131). -/
def State.fetch (s : State) : Option Instr := s.prog[(s.reg .i).toNat]?

/-- `x[I] <- (x[I] + 1) mod 256`, before dispatch (R132). -/
def State.advance (s : State) : State := s.setReg .i (s.reg .i + 1)

/-- Entries overwritten in place from `start`, the store extended past its end, nothing shifted (45_sys.md R200). -/
def storeAt (prog : List Instr) (start : Nat) (is : List Instr) : List Instr :=
  prog.take start ++ is ++ prog.drop (start + is.length)

/-- Decoded instructions written into the store from `start` (45_sys.md R200). -/
def State.putCode (s : State) (start : Nat) (is : List Instr) : State := { s with prog := storeAt s.prog start is }

/-- The one instruction that only advances I (30_encoding.md R102, R106). -/
def nop : Instr := .stk none none

/-- The block about to fetch `ins`: it stands at index I of the store, entries below I that the store lacks are NOPs,
and the latch is Running, as a step requires (R130; log 7). -/
def State.placeAtFetch (s : State) (ins : Instr) : State :=
  let idx := (s.reg .i).toNat
  { s with
    prog := storeAt (s.prog ++ List.replicate (idx - s.prog.length) nop) idx [ins]
    outcome := .running }

/-! ### The host port (spec/45_sys.md R190, R205) -/

/-- A free answer to a request, within the ranges of R190 (log 3). -/
def freeAnswer (n : Nat) : HostRequest → HostResponse
  | .openFile path =>
    match Config.freeOpen n path with
    | .ok fd => .opened fd
    | .error e => .err e
  | .readFile fd count =>
    match Config.freeRead n fd count with
    | .ok bytes => .data (bytes.take count)
    | .error e => .err e
  | .writeFile fd bytes =>
    match Config.freeWrite n fd bytes with
    | .ok k => .wrote (min k bytes.length)
    | .error e => .err e
  | .sleep _ => .slept

/-- The host's answer to a request: the next one of `hostIn`, and a free one once `hostIn` is empty (R205; log 3). -/
def State.answer (s : State) (req : HostRequest) : HostResponse :=
  match s.hostIn with
  | resp :: _ => resp
  | [] => freeAnswer s.freeDraws req

/-- The block after a request was issued and answered: the request is on record and its answer used up. What the host
has done stays done (R194, R226). -/
def State.afterRequest (s : State) (req : HostRequest) : State :=
  { s with
    hostOut := s.hostOut ++ [req]
    hostIn := s.hostIn.tail
    freeDraws := if s.hostIn.isEmpty then s.freeDraws + 1 else s.freeDraws }

/-- `fdtable ∪ {fd}` (R198) on the strictly ascending list (log 17). -/
def addFd (t : List Nat) (fd : Nat) : List Nat :=
  match t with
  | [] => [fd]
  | x :: rest => if fd < x then fd :: x :: rest else if fd = x then x :: rest else x :: addFd rest fd

/-- A descriptor entered in the arbiter's table (R197, R198). -/
def State.ownFd (s : State) (fd : Nat) : State := { s with fdtable := addFd s.fdtable fd }

/-! ### The stack (spec/42_stk.md R160, R161) -/

/-- `Push(v)` (R160). -/
def State.push (s : State) (v : Byte) : Except FaultKind State :=
  if s.policy = .checked ∧ s.reg .s = 0xFF then .error (.stackOverflow (s.reg .s))
  else .ok ((s.setStkByte (s.reg .s) v).setReg .s (s.reg .s + 1))

/-- `Pop(d)` (R161): S is written before the destination, so a destination S ends as the popped byte (R162). -/
def State.pop (s : State) (dst : Reg) : Except FaultKind State :=
  if s.policy = .checked ∧ s.reg .s = 0x00 then .error (.stackUnderflow (s.reg .s))
  else .ok ((s.setReg .s (s.reg .s - 1)).setReg dst (s.stkByte (s.reg .s - 1)))

end Sys2Proof.Machine
end

