-- ==== Sys2Proof/Machine/Operands.lean ====
section
/-! DEFINITION. The operand forms: required and optional register operands (spec/60_exceptions.md R224), and the two
halves of STK (42_stk.md R162). -/
namespace Sys2Proof.Machine

/-- A position that requires a register: None raises InvalidOperand with the opcode and the position (R221, R224). -/
def requireReg (op : Opcode) (pos : OperandPos) (x : Option Reg) (s : State) (k : Reg → Result) : Result :=
  match x with
  | none => raise (.invalidOperand op pos) s
  | some r => k r

/-- Two required registers, arg1 checked first (R227). -/
def requireTwo (op : Opcode) (x y : Option Reg) (s : State) (k : Reg → Reg → Result) : Result :=
  requireReg op .arg1 x s fun r => requireReg op .arg2 y s fun q => k r q

/-- STK's push half, skipped when None (R162). -/
def pushHalf (src : Option Reg) (s : State) : Except FaultKind State :=
  match src with
  | none => .ok s
  | some r => s.push (s.reg r)

/-- STK's pop half, skipped when None (R162). -/
def popHalf (dst : Option Reg) (s : State) : Except FaultKind State :=
  match dst with
  | none => .ok s
  | some r => s.pop r

end Sys2Proof.Machine
end

