-- ==== Sys2Proof/Machine/CmpJmp.lean ====
section
/-! DEFINITION. CMP and JMP (spec/44_cmp_jmp.md). -/
namespace Sys2Proof.Machine

/-- CMP (R180): replaces F entirely. -/
def execCmp (x y : Option Reg) (s : State) : Result :=
  requireTwo .cmp x y s fun ra rb => .next (s.setReg .f (cmpFlags s.cfg (s.reg ra) (s.reg rb)))

/-- JMP (R182): the target is required even when the jump is not taken (D14). -/
def execJmp (condMask : Byte) (targetReg : Option Reg) (s : State) : Result :=
  requireReg .jmp .arg2 targetReg s fun rt =>
    if jumpTaken (s.reg .f) condMask then .next (s.setReg .i (s.reg rt)) else .next s

end Sys2Proof.Machine
end

