-- ==== Sys2Proof/Machine/ImmAdd.lean ====
section
/-! DEFINITION. IMM and ADD (spec/41_imm_add.md). -/
namespace Sys2Proof.Machine

/-- IMM (R150). -/
def execImm (dst : Option Reg) (imm8 : Byte) (s : State) : Result :=
  requireReg .imm .arg1 dst s fun rd => .next (s.setReg rd imm8)

/-- ADD (R151): wraps, sets no flag. -/
def execAdd (x y : Option Reg) (s : State) : Result :=
  requireTwo .add x y s fun ra rb => .next (s.setReg ra (s.reg ra + s.reg rb))

end Sys2Proof.Machine
end

