-- ==== Sys2Proof/Machine/LoadStore.lean ====
section
/-! DEFINITION. STM and LDM (spec/43_stm_ldm.md); the one addressing mode is register-indirect. -/
namespace Sys2Proof.Machine

/-- STM (R170). -/
def execStm (addrReg valReg : Option Reg) (s : State) : Result :=
  requireTwo .stm addrReg valReg s fun rp rv => .next (s.setMemByte (s.reg rp) (s.reg rv))

/-- LDM (R171): the address is read before the destination is written. -/
def execLdm (dst addrReg : Option Reg) (s : State) : Result :=
  requireTwo .ldm dst addrReg s fun rd rp => .next (s.setReg rd (s.memByte (s.reg rp)))

end Sys2Proof.Machine
end

