-- ==== Sys2Proof/Machine/Stack.lean ====
section
/-! DEFINITION. STK (spec/42_stk.md). -/
namespace Sys2Proof.Machine

/-- STK (R162): the push first, then the pop. A half that faults leaves the instruction without effect (R226). -/
def execStk (popDst pushSrc : Option Reg) (s : State) : Result :=
  match pushHalf pushSrc s with
  | .error k => raise k s
  | .ok pushed =>
    match popHalf popDst pushed with
    | .error k => raise k s
    | .ok popped => .next popped

end Sys2Proof.Machine
end

