-- ==== Sys2Proof/Machine/Sys.lean ====
section
/-! DEFINITION. SYS and the syscall arbiter (spec/45_sys.md). -/
namespace Sys2Proof.Machine

/-- How a syscall ends, before its result register is written: with a result byte (R193), with a fault (R194), or with
a stop of the model (R205). -/
inductive SysEnd where
  | returns (v : Byte) (s : State)
  | raises (k : FaultKind) (s : State)
  | stops (r : Fault)
  | refuses (r : Refusal)
deriving DecidableEq, Repr

/-- An answer that is not an `Ok` of the request's own range: `Err(e)` is HostIoError(e), silence leaves the step
unfinished, anything else is refused (R205). -/
def notOk (req : HostRequest) (resp : HostResponse) (s : State) : SysEnd :=
  match resp with
  | .err e => .raises (.hostIoError e) s
  | .silent => .stops (.hostNeverAnswers req)
  | _ => .refuses (.hostOutsideContract req resp)

/-- OPEN (R198). A descriptor above 255 stays open, in the table, and is not returned (D17). -/
def doOpen (pathPtr : Byte) (s : State) : SysEnd :=
  match s.readCString pathPtr with
  | .error k => .raises k s
  | .ok path =>
    let req := HostRequest.openFile path
    let s' := s.afterRequest req
    match s.answer req with
    | .opened fd =>
      if 255 < fd then .raises (.fileDescriptorOverflow fd) (s'.ownFd fd)
      else .returns (BitVec.ofNat 8 fd) (s'.ownFd fd)
    | resp => notOk req resp s'

/-- READ_CODE (R200): `count` is a number of instructions; a bad word leaves the whole store unchanged. -/
def doReadCode (fd start count : Byte) (s : State) : SysEnd :=
  if outOfRange start.toNat count.toNat then .raises (.outOfBounds start.toNat count.toNat) s
  else if s.progLen < start.toNat then .raises (.outOfBounds start.toNat count.toNat) s
  else
    let req := HostRequest.readFile fd (3 * count.toNat)
    let s' := s.afterRequest req
    match s.answer req with
    | .data bytes =>
      if 3 * count.toNat < bytes.length then .refuses (.hostOutsideContract req (.data bytes))
      else match decodeStream s'.cfg bytes with
        | .error e => .raises (.decodeError e) s'
        | .ok is => .returns (BitVec.ofNat 8 is.length) (s'.putCode start.toNat is)
    | resp => notOk req resp s'

/-- READ_MEMORY (R201). -/
def doReadMemory (fd start count : Byte) (s : State) : SysEnd :=
  if outOfRange start.toNat count.toNat then .raises (.outOfBounds start.toNat count.toNat) s
  else
    let req := HostRequest.readFile fd count.toNat
    let s' := s.afterRequest req
    match s.answer req with
    | .data bytes =>
      if count.toNat < bytes.length then .refuses (.hostOutsideContract req (.data bytes))
      else match s'.memWriteRange start.toNat bytes with
        | .error k => .raises k s'
        | .ok written => .returns (BitVec.ofNat 8 bytes.length) written
    | resp => notOk req resp s'

/-- WRITE (R202): from data memory, one host write, no retry of a short one. -/
def doWrite (fd start size : Byte) (s : State) : SysEnd :=
  match s.memReadRange start.toNat size.toNat with
  | .error k => .raises k s
  | .ok data =>
    let req := HostRequest.writeFile fd data
    let s' := s.afterRequest req
    match s.answer req with
    | .wrote k =>
      if data.length < k then .refuses (.hostOutsideContract req (.wrote k)) else .returns (BitVec.ofNat 8 k) s'
    | resp => notOk req resp s'

/-- SLEEP (R203): the result is 0 (D21). R190 gives the sleep request no `Err`. -/
def doSleep (secs : Byte) (s : State) : SysEnd :=
  let req := HostRequest.sleep secs
  match s.answer req with
  | .slept => .returns 0 (s.afterRequest req)
  | .silent => .stops (.hostNeverAnswers req)
  | resp => .refuses (.hostOutsideContract req resp)

/-- The last action of a SYS that is not EXIT (R193): the result byte into the result register; a fault writes none. -/
def finishSys (r : Reg) : SysEnd → Result
  | .returns v s => .next (s.setReg r v)
  | .raises k s => raise k s
  | .stops k => .fault k
  | .refuses k => .refused k

/-- SYS (R191): the code is looked up first, then the result register is checked, except for EXIT (R194). The argument
registers are A, B and C, whatever the operands (R192). -/
def execSys (code : Byte) (resultReg : Option Reg) (s : State) : Result :=
  match s.cfg.syscallOf code with
  | none => raise (.unsupportedSyscall code) s
  | some .exit => halt (s.reg .a) s
  | some .openFile => requireReg .sys .arg2 resultReg s fun r => finishSys r (doOpen (s.reg .a) s)
  | some .readCode =>
    requireReg .sys .arg2 resultReg s fun r => finishSys r (doReadCode (s.reg .a) (s.reg .b) (s.reg .c) s)
  | some .readMemory =>
    requireReg .sys .arg2 resultReg s fun r => finishSys r (doReadMemory (s.reg .a) (s.reg .b) (s.reg .c) s)
  | some .write => requireReg .sys .arg2 resultReg s fun r => finishSys r (doWrite (s.reg .a) (s.reg .b) (s.reg .c) s)
  | some .sleep => requireReg .sys .arg2 resultReg s fun r => finishSys r (doSleep (s.reg .a) s)

end Sys2Proof.Machine
end

