-- ==== Sys2Proof/Machine/Dispatch.lean ====
section
/-! DEFINITION. Dispatch by variant (spec/40_engine.md R133): total, one arm per instruction of the closed set. -/
namespace Sys2Proof.Machine

/-- The handler of an instruction, run on the state whose I is already advanced (R130, R132). -/
def exec (i : Instr) (s : State) : Host.Outcome State Fault Refusal :=
  match i with
  | .imm dst imm8 => Sys2Proof.Machine.execImm dst imm8 s
  | .add x y => Sys2Proof.Machine.execAdd x y s
  | .stk popDst pushSrc => Sys2Proof.Machine.execStk popDst pushSrc s
  | .stm addrReg valReg => Sys2Proof.Machine.execStm addrReg valReg s
  | .ldm dst addrReg => Sys2Proof.Machine.execLdm dst addrReg s
  | .cmp x y => Sys2Proof.Machine.execCmp x y s
  | .jmp condMask targetReg => Sys2Proof.Machine.execJmp condMask targetReg s
  | .sys code resultReg => Sys2Proof.Machine.execSys code resultReg s

end Sys2Proof.Machine
end

