-- ==== Sys2Proof/Machine/Step.lean ====
section
/-! DEFINITION. The step: fetch, advance, dispatch (spec/40_engine.md R130), and a table word placed where the next
fetch reads. -/
namespace Sys2Proof.Machine

/-- One step (R130). It runs only while the latch is Running (R34); a stopped block takes no step (R228; log 6). The
fetch is checked before the advance, so a fetch fault leaves I as it was (R131). -/
def step (s : State) : Host.Outcome State Fault Refusal :=
  match s.outcome with
  | .halted code => .fault (.blockHalted code)
  | .faulted kind => .fault (.blockFaulted kind)
  | .running =>
    match s.fetch with
    | none => raise (.programCounterOutOfRange (s.reg .i)) s
    | some ins => exec ins s.advance

/-- The instruction of a table word, decoded under the state's own `Constants`, placed where the next step fetches. The
store holds decoded instructions only (R70), so a word that does not decode is not placed (R102; log 7). -/
def State.withFetchWord (s : State) (nbits w : Nat) : State :=
  match decodeWordWith s.cfg nbits w with
  | some ins => s.placeAtFetch ins
  | none => s

end Sys2Proof.Machine
end

