-- ==== Sys2Proof/WellFormed.lean ====
section
/-! DEFINITION. The well-formedness of an instruction: the contract on None operands (spec/60_exceptions.md R224: None
"must never be read/written directly"). It is a contract of execution, not of decoding: every instruction encodes and
decodes, None operands among them (30_encoding.md R98). The well-formedness of `Constants` is
`Sys2Proof.Machine.configValid`. -/
namespace Sys2Proof

/-- The table of R224: no required register position holds None. STK has none; SYS needs its result register except
for EXIT. -/
def Instr.wellFormed (C : Constants) : Instr → Bool
  | .imm dst _ => dst.isSome
  | .add x y => x.isSome && y.isSome
  | .stk _ _ => true
  | .stm addrReg valReg => addrReg.isSome && valReg.isSome
  | .ldm dst addrReg => dst.isSome && addrReg.isSome
  | .cmp x y => x.isSome && y.isSome
  | .jmp _ targetReg => targetReg.isSome
  | .sys code resultReg => resultReg.isSome || C.syscallOf code == some .exit

end Sys2Proof
end

