-- ==== Sys2Proof/Safety.lean ====
section
/-! DEFINITION. The vocabulary of the claims: what a step leaves unchanged, a fault that changes only the latch, a host
request issued, the host's contract (spec/45_sys.md R190), the machine's invariant, and runs without a fault. -/
namespace Sys2Proof.Machine

/-! ### Frames -/

/-- Every register but those listed reads as before. -/
def SameRegs (but : List Reg) (s t : State) : Prop := ∀ r, r ∉ but → t.reg r = s.reg r

/-- Every cell of data memory reads as before. -/
def SameMem (s t : State) : Prop := ∀ addr : Byte, t.memByte addr = s.memByte addr

/-- Every cell of the stack array reads as before. -/
def SameStk (s t : State) : Prop := ∀ idx : Byte, t.stkByte idx = s.stkByte idx

/-- The inputs latched at construction are as before (R6). -/
def SameInputs (s t : State) : Prop := t.cfg = s.cfg ∧ t.policy = s.policy

/-- The host port and the descriptor table are as before: no request was issued. -/
def SameHostPort (s t : State) : Prop :=
  t.fdtable = s.fdtable ∧ t.hostIn = s.hostIn ∧ t.hostOut = s.hostOut ∧ t.freeDraws = s.freeDraws

/-- Everything but registers, data memory and the stack array is as before. -/
def SameRest (s t : State) : Prop := t.prog = s.prog ∧ t.outcome = s.outcome ∧ SameInputs s t ∧ SameHostPort s t

/-- A fault that did nothing but set the latch. -/
def FaultedOnly (k : FaultKind) (s t : State) : Prop :=
  t.outcome = .faulted k ∧ SameRegs [] s t ∧ SameMem s t ∧ SameStk s t ∧ t.prog = s.prog ∧ SameInputs s t ∧
    SameHostPort s t

/-! ### The host port -/

/-- Exactly the request `req` was issued, and one answer was used up: the next of `hostIn`, or a free one. The
record and the script are the model's (log 3). -/
def Asked (req : HostRequest) (s t : State) : Prop :=
  t.hostOut = s.hostOut ++ [req] ∧ t.hostIn = s.hostIn.tail ∧
    t.freeDraws = if s.hostIn = [] then s.freeDraws + 1 else s.freeDraws

/-- A fault after the request `req`: the latch is set and the host has done what it did; nothing else changed, the
descriptor table apart, which the statement that uses this gives. -/
def FaultedAfter (req : HostRequest) (k : FaultKind) (s t : State) : Prop :=
  t.outcome = .faulted k ∧ SameRegs [] s t ∧ SameMem s t ∧ SameStk s t ∧ t.prog = s.prog ∧ SameInputs s t ∧
    Asked req s t

/-- The response ranges of R190. A host that never answers makes no response. -/
def allowed : HostRequest → HostResponse → Bool
  | .openFile _, .opened _ => true
  | .openFile _, .err _ => true
  | .readFile _ count, .data bytes => decide (bytes.length ≤ count)
  | .readFile _ _, .err _ => true
  | .writeFile _ data, .wrote k => decide (k ≤ data.length)
  | .writeFile _ _, .err _ => true
  | .sleep _, .slept => true
  | _, _ => false

/-! ### The registers an instruction may write -/

/-- The written registers of R24's table, explicit and implicit, under the configuration that names the syscalls. The
advance of I is the step's, not the instruction's. -/
def Instr.writes (C : Constants) : Instr → List Reg
  | .imm dst _ => dst.toList
  | .add x _ => x.toList
  | .stk popDst pushSrc => popDst.toList ++ (if popDst.isSome || pushSrc.isSome then [.s] else [])
  | .stm _ _ => []
  | .ldm dst _ => dst.toList
  | .cmp _ _ => [.f]
  | .jmp _ _ => [.i]
  | .sys code resultReg => if C.syscallOf code == some .exit then [] else resultReg.toList

/-! ### Invariant and runs -/

/-- What every step keeps: both arrays in canonical form, the descriptor table a set in ascending order, and the latch
showing DecodeError(config) exactly where `Constants` is malformed (R262). -/
structure State.Inv (s : State) : Prop where
  memCanonical : Memory.wf s.mem = true
  stkCanonical : Memory.wf s.stk = true
  fdAscending : s.fdtable.Pairwise (· < ·)
  configLatched : s.outcome = .faulted (.decodeError .config) ↔ configValid s.cfg = false

/-- `t` is reached from `s` by steps that answer a next state. -/
inductive Reaches (s : State) : State → Prop where
  | here : Reaches s s
  | step {t u : State} : Reaches s t → step t = .next u → Reaches s u

/-- A safe run: no reached state shows a fault ("program finished normally" or still runs, R220). -/
def NeverFaults (s : State) : Prop := ∀ t, Reaches s t → ∀ k, t.outcome ≠ .faulted k

/-- A result with `f` applied to its next state. -/
def mapNext (f : State → State) : Result → Result
  | .next t => .next (f t)
  | .fault r => .fault r
  | .refused r => .refused r

end Sys2Proof.Machine
end

