-- ==== Sys2Proof/Certificates/Slice0/Obligations.lean ====
section
/-! DEFINITION. The statements for the provers. Each docstring names the rule of spec/ it formalises. -/
open Sys2Proof Sys2Proof.Machine

/-! ### Encoding and decoding (spec/30_encoding.md) -/

/-- 30_encoding.md sections 1 and 2: under every valid configuration, every layout and code map among them, an encoded
instruction decodes to itself and leaves the bytes after it. -/
def Obligations.DecodeReadsWhatEncodeWrites : Prop :=
  ∀ (C : Constants) (i : Instr) (rest : List Byte), configValid C = true →
    decode C (encode C i ++ rest) = .ok (i, rest)

/-- 30_encoding.md sections 1 and 2: under every valid configuration only one word decodes to an instruction, so no
bit of a word is dropped. -/
def Obligations.DecodedBytesAreTheEncoding : Prop :=
  ∀ (C : Constants) (bytes rest : List Byte) (i : Instr), configValid C = true → decode C bytes = .ok (i, rest) →
    bytes = encode C i ++ rest

/-- 30_encoding.md R90 and R103 (instruction k at byte offset 3k): a program's encoding decodes to the program, and a
stream with a partial word at its end to no program. -/
def Obligations.ProgramStreamRoundTrip : Prop :=
  ∀ (C : Constants) (prog : List Instr), configValid C = true →
    decodeStream C (prog.flatMap (encode C)) = .ok prog ∧
    ∀ b0 b1 : Byte, decodeStream C (prog.flatMap (encode C) ++ [b0]) = .error .partialWord ∧
      decodeStream C (prog.flatMap (encode C) ++ [b0, b1]) = .error .partialWord

/-- R93: the op byte selects the variant whose code it equals, at most one does, and no match is a DecodeError. -/
def Obligations.OpcodeByteSelectsVariant : Prop :=
  ∀ (C : Constants) (op a1 a2 : Byte),
    ((∀ m, C.opCode m ≠ op) → decodeFields C op a1 a2 = .error (.opcode op)) ∧
    (opsValid C = true → ∀ m, C.opCode m = op →
      (∀ m', C.opCode m' = op → m' = m) ∧
      (∀ i, decodeFields C op a1 a2 = .ok i → i.opcode = m) ∧
      decodeFields C op a1 a2 ≠ .error (.opcode op))

/-- 30_encoding.md section 2 (decode_reg): that 0x00 is None is "the spec's choice" (D6). -/
def Obligations.RegisterByteDecodes : Prop :=
  ∀ (C : Constants) (v : Byte),
    (v = 0 → decodeReg C v = .ok none) ∧
    (regsValid C = true → ∀ r, C.regCode r = v → decodeReg C v = .ok (some r)) ∧
    (v ≠ 0 → (∀ r, C.regCode r ≠ v) → decodeReg C v = .error (.register v))

/-- 30_encoding.md, R99 and R102: a word is rejected for an unknown opcode, an unknown register byte or being partial, and
for nothing else; the kind and byte reported are those of the first bad field, arg1 before arg2. The first part gives the
cause of every error, the other two the error of every cause. -/
def Obligations.DecodeRejectsOnlyThreeWays : Prop :=
  ∀ C : Constants, configValid C = true →
    (∀ (bytes : List Byte) (e : DecodeError), decode C bytes = .error e →
      (bytes.length < 3 ∧ e = .partialWord) ∨
      (∃ b0 b1 b2 rest, bytes = b0 :: b1 :: b2 :: rest ∧
        ((∀ m, C.opCode m ≠ byteAt b0 b1 b2 C.layout.pOp) ∧ e = .opcode (byteAt b0 b1 b2 C.layout.pOp) ∨
         (∃ m, C.opCode m = byteAt b0 b1 b2 C.layout.pOp ∧ m ≠ .jmp ∧ m ≠ .sys ∧
           decodeReg C (byteAt b0 b1 b2 C.layout.pArg1) = .error (.register (byteAt b0 b1 b2 C.layout.pArg1)) ∧
           e = .register (byteAt b0 b1 b2 C.layout.pArg1)) ∨
         (∃ m, C.opCode m = byteAt b0 b1 b2 C.layout.pOp ∧ m ≠ .imm ∧
           (m = .jmp ∨ m = .sys ∨ ∃ x, decodeReg C (byteAt b0 b1 b2 C.layout.pArg1) = .ok x) ∧
           decodeReg C (byteAt b0 b1 b2 C.layout.pArg2) = .error (.register (byteAt b0 b1 b2 C.layout.pArg2)) ∧
           e = .register (byteAt b0 b1 b2 C.layout.pArg2))))) ∧
    (∀ bytes : List Byte, bytes.length < 3 → decode C bytes = .error .partialWord) ∧
    ∀ (b0 b1 b2 : Byte) (rest : List Byte),
      ((∀ m, C.opCode m ≠ byteAt b0 b1 b2 C.layout.pOp) →
        decode C (b0 :: b1 :: b2 :: rest) = .error (.opcode (byteAt b0 b1 b2 C.layout.pOp))) ∧
      ∀ m, C.opCode m = byteAt b0 b1 b2 C.layout.pOp →
        (m ≠ .jmp → m ≠ .sys → byteAt b0 b1 b2 C.layout.pArg1 ≠ 0 →
          (∀ r, C.regCode r ≠ byteAt b0 b1 b2 C.layout.pArg1) →
          decode C (b0 :: b1 :: b2 :: rest) = .error (.register (byteAt b0 b1 b2 C.layout.pArg1))) ∧
        (m ≠ .imm → (m = .jmp ∨ m = .sys ∨ ∃ x, decodeReg C (byteAt b0 b1 b2 C.layout.pArg1) = .ok x) →
          byteAt b0 b1 b2 C.layout.pArg2 ≠ 0 → (∀ r, C.regCode r ≠ byteAt b0 b1 b2 C.layout.pArg2) →
          decode C (b0 :: b1 :: b2 :: rest) = .error (.register (byteAt b0 b1 b2 C.layout.pArg2)))

/-- Words written out by hand from 30_encoding.md R92 and R104, one per family and one that is rejected. -/
def Obligations.HandWrittenWordsDecode : Prop :=
  decodeTableWord 24 0x01012A = some (.imm (some .a) 42) ∧
  decodeTableWord 24 0x020102 = some (.add (some .a) (some .b)) ∧
  decodeTableWord 24 0x040204 = some (.stk (some .b) (some .c)) ∧
  decodeTableWord 24 0x080401 = some (.stm (some .c) (some .a)) ∧
  decodeTableWord 24 0x100804 = some (.ldm (some .d) (some .c)) ∧
  decodeTableWord 24 0x204010 = some (.cmp (some .f) (some .s)) ∧
  decodeTableWord 24 0x40FF20 = some (.jmp 0xFF (some .i)) ∧
  decodeTableWord 24 0x802000 = some (.sys 0x20 none) ∧
  decodeTableWord 24 0x030101 = none

/-! ### Configuration and reset (spec/10_state.md, spec/70_reset_and_hazards.md) -/

/-- 10_state.md section 6 and 70_reset_and_hazards.md section 1 (the values of R38 and R260, and R262's outcome for a malformed
`Constants`): what construction leaves in every piece of state, for every configuration, policy and program. That the
configuration and the policy are held in State is the model's (log 1), and so is the computed view of the slots (log 8). -/
def Obligations.ConstructionResetValues : Prop :=
  ∀ (C : Constants) (p : StackPolicy) (prog : List Instr),
    (∀ r, (State.construct C p prog).reg r = 0) ∧
    (∀ k, (State.construct C p prog).slotValue k = 0) ∧
    (∀ addr, (State.construct C p prog).memByte addr = 0) ∧
    (∀ idx, (State.construct C p prog).stkByte idx = 0) ∧
    (State.construct C p prog).prog = prog ∧
    (State.construct C p prog).progLen = prog.length ∧
    (configValid C = true → (State.construct C p prog).outcome = .running) ∧
    (configValid C = false → (State.construct C p prog).outcome = .faulted (.decodeError .config)) ∧
    (State.construct C p prog).fdtable = [] ∧
    (State.construct C p prog).cfg = C ∧ (State.construct C p prog).policy = p

/-- 70_reset_and_hazards.md section 1: the five checks, in words of their own, and what fails them: no step runs. "Checks 2
to 5 extend the same rule to the other maps, as the spec's choice"; that a map listing a name twice is rejected is the
model's (log 9), and so is the name of the stop that `step` answers (log 6). -/
def Obligations.ConfigurationValidation : Prop :=
  ∀ C : Constants,
    (configValid C = true ↔
      ((∀ r, ∃ k, k < 8 ∧ C.regCode r = BitVec.ofNat 8 (2 ^ k)) ∧ ∀ r q, r ≠ q → C.regCode r ≠ C.regCode q) ∧
      ((∀ f, ∃ k, k < 8 ∧ C.flagBit f = BitVec.ofNat 8 (2 ^ k)) ∧ ∀ f h, f ≠ h → C.flagBit f ≠ C.flagBit h) ∧
      (∀ m n, m ≠ n → C.opCode m ≠ C.opCode n) ∧
      ((∀ n, ∃ v, (SysKey.known n, v) ∈ C.sys) ∧ (∀ e ∈ C.sys, ∃ n, e.1 = SysKey.known n) ∧
        C.sys.Pairwise (fun x y => x.1 ≠ y.1 ∧ x.2 ≠ y.2)) ∧
      [C.layout.pOp, C.layout.pArg1, C.layout.pArg2].Perm [0, 1, 2]) ∧
    (configValid C = false → ∀ p prog,
      (State.construct C p prog).outcome = .faulted (.decodeError .config) ∧
      step (State.construct C p prog) = .fault (.blockFaulted (.decodeError .config)))

/-- 10_state.md section 1 (the slot derivation of R23): under a valid `C.reg` the slots of the registers are distinct
bit positions 0 to 7, exactly one position is unused, and the slot view shows each register at its slot and 0 at the
unused one. The 0 is the value of section 6 (R38); that slots are a view computed from the named registers, in which the
unused one reads 0 in every state, is the model's (log 8). -/
def Obligations.RegisterSlots : Prop :=
  ∀ s : State, regsValid s.cfg = true →
    (∀ r, slotOf s.cfg r < 8 ∧ s.cfg.regCode r = BitVec.ofNat 8 (2 ^ slotOf s.cfg r)) ∧
    (∀ r q, slotOf s.cfg r = slotOf s.cfg q → r = q) ∧
    (∃ k, k < 8 ∧ (∀ r, slotOf s.cfg r ≠ k) ∧ (∀ j, j < 8 → (∀ r, slotOf s.cfg r ≠ j) → j = k) ∧
      s.slotValue k = 0) ∧
    (∀ r, s.slotValue (slotOf s.cfg r) = s.reg r)

/-- 10_state.md section 1 ("no architectural result depends on which slots are used") and R91, R94: the register
codes, opcode codes and layout are an encoding only. Whatever they are, an instruction that is not READ_CODE does the
same. -/
def Obligations.CodesDoNotChangeMeanings : Prop :=
  ∀ (s : State) (i : Instr) (reg : RegCodes) (op : OpCodes) (layout : Layout),
    (∀ code r, i = .sys code r → s.cfg.syscallOf code ≠ some .readCode) →
    exec i { s with cfg := { s.cfg with reg := reg, op := op, layout := layout } } =
      mapNext (fun t => { t with cfg := { t.cfg with reg := reg, op := op, layout := layout } }) (exec i s)

/-! ### The engine (spec/40_engine.md) -/

/-- 40_engine.md section 1: a step of a running block runs the instruction at index I on the state whose I is advanced
and in which nothing else changed. -/
def Obligations.StepRunsFetchedInstruction : Prop :=
  ∀ (s : State) (ins : Instr), s.outcome = .running → s.prog[(s.reg .i).toNat]? = some ins →
    step s = exec ins s.advance ∧
    (s.advance.reg .i).toNat = ((s.reg .i).toNat + 1) % 256 ∧
    SameRegs [.i] s s.advance ∧ SameMem s s.advance ∧ SameStk s s.advance ∧ SameRest s s.advance

/-- A table word decoded under the state's configuration and placed at the fetch is what the next step runs; nothing
but the store and the latch was touched, and in the store no other entry. How a program is placed is the model's
choice (log 7); that the step then runs it is 40_engine.md section 1. -/
def Obligations.PlacedWordIsWhatStepRuns : Prop :=
  ∀ (s : State) (nbits w : Nat) (ins : Instr), decodeWordWith s.cfg nbits w = some ins →
    step (s.withFetchWord nbits w) = exec ins (s.withFetchWord nbits w).advance ∧
    (s.withFetchWord nbits w).outcome = .running ∧
    (∀ k, k < s.prog.length → k ≠ (s.reg .i).toNat → (s.withFetchWord nbits w).prog[k]? = s.prog[k]?) ∧
    SameRegs [] s (s.withFetchWord nbits w) ∧ SameMem s (s.withFetchWord nbits w) ∧
    SameStk s (s.withFetchWord nbits w) ∧ SameInputs s (s.withFetchWord nbits w) ∧
    SameHostPort s (s.withFetchWord nbits w)

/-- 40_engine.md section 1: the fetch reads Prog[x[I]] of the current store and fails at or beyond its length with nothing but
the latch changed. That no entry at index 256 or above is ever fetched is R131's last sentence, which the spec marks
"[derived: from rule R130]", and 20_memory.md section 6 (R71). -/
def Obligations.FetchBeyondProgramFaults : Prop :=
  ∀ s : State,
    ((s.reg .i).toNat < s.prog.length → s.fetch = s.prog[(s.reg .i).toNat]?) ∧
    s.fetch = (s.prog.take 256)[(s.reg .i).toNat]? ∧
    (s.outcome = .running → s.prog.length ≤ (s.reg .i).toNat →
      ∃ t, step s = .next t ∧ FaultedOnly (.programCounterOutOfRange (s.reg .i)) s t)

/-- 60_exceptions.md section 3 and 10_state.md section 5: no step runs once the latch is not Running. The stop's name is
the model's (log 6). -/
def Obligations.StoppedBlockTakesNoStep : Prop :=
  ∀ s : State, (∀ code, s.outcome = .halted code → step s = .fault (.blockHalted code)) ∧
    (∀ k, s.outcome = .faulted k → step s = .fault (.blockFaulted k))

/-! ### IMM and ADD (spec/41_imm_add.md) -/

/-- R150: IMM. -/
def Obligations.ImmLoadsImmediate : Prop :=
  ∀ (s : State) (v : Byte),
    (∀ r, ∃ t, exec (.imm (some r) v) s = .next t ∧ t.reg r = v ∧
      SameRegs [r] s t ∧ SameMem s t ∧ SameStk s t ∧ SameRest s t) ∧
    (∃ t, exec (.imm none v) s = .next t ∧ FaultedOnly (.invalidOperand .imm .arg1) s t) ∧
    ∀ (C : Constants) (rd : Option Reg),
      C.opCode (Instr.imm rd v).opcode = C.op.imm ∧ encodeArg1 C (.imm rd v) = encodeReg C rd ∧ encodeArg2 C (.imm rd v) = v

/-- R151: ADD, the sum mod 256, no flag computed. -/
def Obligations.AddWrapsWithoutFlags : Prop :=
  ∀ (s : State),
    (∀ x y, ∃ t, exec (.add (some x) (some y)) s = .next t ∧
      (t.reg x).toNat = ((s.reg x).toNat + (s.reg y).toNat) % 256 ∧
      SameRegs [x] s t ∧ SameMem s t ∧ SameStk s t ∧ SameRest s t) ∧
    (∀ y, ∃ t, exec (.add none y) s = .next t ∧ FaultedOnly (.invalidOperand .add .arg1) s t) ∧
    (∀ x, ∃ t, exec (.add (some x) none) s = .next t ∧ FaultedOnly (.invalidOperand .add .arg2) s t) ∧
    ∀ (C : Constants) (x y : Option Reg),
      C.opCode (Instr.add x y).opcode = C.op.add ∧ encodeArg1 C (.add x y) = encodeReg C x ∧
        encodeArg2 C (.add x y) = encodeReg C y

/-! ### STK (spec/42_stk.md) -/

/-- R160: Push, with the bound where D12 puts it. -/
def Obligations.PushRule : Prop :=
  ∀ (s : State) (v : Byte),
    (s.policy = .checked → s.reg .s = 0xFF → s.push v = .error (.stackOverflow 0xFF)) ∧
    (s.policy = .wrap ∨ s.reg .s ≠ 0xFF →
      ∃ t, s.push v = .ok t ∧ (t.reg .s).toNat = ((s.reg .s).toNat + 1) % 256 ∧ t.stkByte (s.reg .s) = v ∧
        (∀ idx, idx ≠ s.reg .s → t.stkByte idx = s.stkByte idx) ∧
        (s.policy = .checked → t.stkByte 0xFF = s.stkByte 0xFF) ∧
        SameRegs [.s] s t ∧ SameMem s t ∧ SameRest s t)

/-- R161: Pop; the cell read is not cleared, and a destination S ends as the popped byte. -/
def Obligations.PopRule : Prop :=
  ∀ (s : State) (rd : Reg),
    (s.policy = .checked → s.reg .s = 0x00 → s.pop rd = .error (.stackUnderflow 0x00)) ∧
    (s.policy = .wrap ∨ s.reg .s ≠ 0x00 →
      ∃ t, s.pop rd = .ok t ∧ t.reg rd = s.stkByte (s.reg .s - 1) ∧
        (rd ≠ .s → (t.reg .s).toNat = ((s.reg .s).toNat + 255) % 256) ∧
        SameRegs [rd, .s] s t ∧ SameMem s t ∧ SameStk s t ∧ SameRest s t)

/-- 42_stk.md section 2: STK completes, in each of its four forms, wherever its bounds allow, with the result and frame
given there. -/
def Obligations.StkCompletesInEveryForm : Prop :=
  ∀ s : State,
    (exec (.stk none none) s = .next s) ∧
    (∀ x, s.policy = .wrap ∨ s.reg .s ≠ 0xFF →
      ∃ t, exec (.stk none (some x)) s = .next t ∧ t.stkByte (s.reg .s) = s.reg x ∧ t.reg .s = s.reg .s + 1 ∧
        (∀ idx, idx ≠ s.reg .s → t.stkByte idx = s.stkByte idx) ∧
        SameRegs [.s] s t ∧ SameMem s t ∧ SameRest s t) ∧
    (∀ rd, s.policy = .wrap ∨ s.reg .s ≠ 0x00 →
      ∃ t, exec (.stk (some rd) none) s = .next t ∧ t.reg rd = s.stkByte (s.reg .s - 1) ∧
        (rd ≠ .s → t.reg .s = s.reg .s - 1) ∧
        SameRegs [rd, .s] s t ∧ SameMem s t ∧ SameStk s t ∧ SameRest s t) ∧
    (∀ rd x, s.policy = .wrap ∨ s.reg .s ≠ 0xFF →
      ∃ t, exec (.stk (some rd) (some x)) s = .next t ∧ t.reg rd = s.reg x ∧ t.stkByte (s.reg .s) = s.reg x ∧
        (∀ idx, idx ≠ s.reg .s → t.stkByte idx = s.stkByte idx) ∧
        SameRegs [rd] s t ∧ SameMem s t ∧ SameRest s t)

/-- 42_stk.md, R162 and R163: where STK faults under `checked`, with nothing but the latch changed; a push that
overflows faults before the pop. -/
def Obligations.StkBoundsUnderChecked : Prop :=
  ∀ s : State, s.policy = .checked →
    (s.reg .s = 0xFF → ∀ rd x, ∃ t, exec (.stk rd (some x)) s = .next t ∧ FaultedOnly (.stackOverflow 0xFF) s t) ∧
    (s.reg .s = 0x00 → ∀ rd, ∃ t, exec (.stk (some rd) none) s = .next t ∧ FaultedOnly (.stackUnderflow 0x00) s t)

/-- R225: a stack fault comes only from STK under `checked`; under `wrap` every form of STK completes with the latch as it
was, and the pointer wraps mod 256 both ways. -/
def Obligations.StackFaultsOnlyUnderChecked : Prop :=
  (∀ (s : State) (i : Instr) (t : State), s.outcome = .running → exec i s = .next t →
    (∃ v, t.outcome = .faulted (.stackOverflow v)) ∨ (∃ v, t.outcome = .faulted (.stackUnderflow v)) →
    s.policy = .checked ∧ i.opcode = .stk) ∧
  ∀ s : State, s.policy = .wrap →
    (∀ rd x, ∃ t, exec (.stk rd x) s = .next t ∧ t.outcome = s.outcome) ∧
    (∀ x, ∃ t, exec (.stk none (some x)) s = .next t ∧ (t.reg .s).toNat = ((s.reg .s).toNat + 1) % 256) ∧
    (∀ rd, rd ≠ .s →
      ∃ t, exec (.stk (some rd) none) s = .next t ∧ (t.reg .s).toNat = ((s.reg .s).toNat + 255) % 256)

/-- R164: the source's testable properties, away from the bounds and so under both policies. -/
def Obligations.StkTestableProperties : Prop :=
  ∀ s : State, s.reg .s ≠ 0xFF → s.reg .s ≠ 0x00 →
    (s.reg .c = 42 → ∃ t, exec (.stk (some .b) (some .c)) s = .next t ∧ t.reg .b = 42 ∧ t.reg .s = s.reg .s) ∧
    (∀ x, ∃ t, exec (.stk none (some x)) s = .next t ∧ t.reg .s = s.reg .s + 1 ∧ t.stkByte (s.reg .s) = s.reg x) ∧
    (∀ rd, rd ≠ .s → ∃ t, exec (.stk (some rd) none) s = .next t ∧ t.reg .s = s.reg .s - 1 ∧
      t.reg rd = s.stkByte (s.reg .s - 1))

/-! ### STM and LDM (spec/43_stm_ldm.md) and the arrays (spec/20_memory.md) -/

/-- R170: STM. -/
def Obligations.StmStoresOneByte : Prop :=
  ∀ (s : State),
    (∀ p v, ∃ t, exec (.stm (some p) (some v)) s = .next t ∧ t.memByte (s.reg p) = s.reg v ∧
      (∀ addr, addr ≠ s.reg p → t.memByte addr = s.memByte addr) ∧
      SameRegs [] s t ∧ SameStk s t ∧ SameRest s t) ∧
    (∀ y, ∃ t, exec (.stm none y) s = .next t ∧ FaultedOnly (.invalidOperand .stm .arg1) s t) ∧
    (∀ x, ∃ t, exec (.stm (some x) none) s = .next t ∧ FaultedOnly (.invalidOperand .stm .arg2) s t) ∧
    ∀ (C : Constants) (x y : Option Reg),
      C.opCode (Instr.stm x y).opcode = C.op.stm ∧ encodeArg1 C (.stm x y) = encodeReg C x ∧
        encodeArg2 C (.stm x y) = encodeReg C y

/-- R171: LDM; memory is not written. -/
def Obligations.LdmLoadsOneByte : Prop :=
  ∀ (s : State),
    (∀ rd p, ∃ t, exec (.ldm (some rd) (some p)) s = .next t ∧ t.reg rd = s.memByte (s.reg p) ∧
      SameRegs [rd] s t ∧ SameMem s t ∧ SameStk s t ∧ SameRest s t) ∧
    (∀ y, ∃ t, exec (.ldm none y) s = .next t ∧ FaultedOnly (.invalidOperand .ldm .arg1) s t) ∧
    (∀ x, ∃ t, exec (.ldm (some x) none) s = .next t ∧ FaultedOnly (.invalidOperand .ldm .arg2) s t) ∧
    (∀ C p prog a, (State.construct C p prog).memByte a = 0) ∧
    ∀ (C : Constants) (x y : Option Reg),
      C.opCode (Instr.ldm x y).opcode = C.op.ldm ∧ encodeArg1 C (.ldm x y) = encodeReg C x ∧
        encodeArg2 C (.ldm x y) = encodeReg C y

/-- 43_stm_ldm.md (the STM and LDM round trip): what STM stores, a later LDM from the same address loads, whichever
registers name address, value and destination, as long as the address is still in its register. -/
def Obligations.StoreThenLoadReturnsValue : Prop :=
  ∀ (s : State) (p v rd q : Reg), s.reg q = s.reg p →
    ∃ t u, exec (.stm (some p) (some v)) s = .next t ∧ exec (.ldm (some rd) (some q)) t = .next u ∧
      u.reg rd = s.reg v

/-- R63: range accesses are checked without wrap-around before any cell is touched, byte k lies at start + k, and an
empty range accesses nothing. -/
def Obligations.RangeAccessBounds : Prop :=
  ∀ (s : State) (start : Byte) (n : Nat) (bytes : List Byte),
    (256 < start.toNat + n → s.memReadRange start.toNat n = .error (.outOfBounds start.toNat n)) ∧
    (start.toNat + n ≤ 256 → ∃ l, s.memReadRange start.toNat n = .ok l ∧ l.length = n ∧
      ∀ k, k < n → l[k]? = some (s.memByte (BitVec.ofNat 8 (start.toNat + k)))) ∧
    (256 < start.toNat + bytes.length →
      s.memWriteRange start.toNat bytes = .error (.outOfBounds start.toNat bytes.length)) ∧
    (start.toNat + bytes.length ≤ 256 → ∃ t, s.memWriteRange start.toNat bytes = .ok t ∧
      (∀ k, k < bytes.length → bytes[k]? = some (t.memByte (BitVec.ofNat 8 (start.toNat + k)))) ∧
      (∀ addr : Byte, addr.toNat < start.toNat ∨ start.toNat + bytes.length ≤ addr.toNat →
        t.memByte addr = s.memByte addr) ∧
      SameRegs [] s t ∧ SameStk s t ∧ SameRest s t) ∧
    s.memReadRange start.toNat 0 = .ok [] ∧ s.memWriteRange start.toNat [] = .ok s

/-- 20_memory.md R67 (plain storage): a cell of either array reads as the last byte written to it, and a write changes
no other cell. -/
def Obligations.ArraysArePlainStorage : Prop :=
  ∀ (s : State) (a b v : Byte),
    (s.setMemByte a v).memByte b = (if b = a then v else s.memByte b) ∧
    (s.setStkByte a v).stkByte b = (if b = a then v else s.stkByte b) ∧
    SameStk s (s.setMemByte a v) ∧ SameMem s (s.setStkByte a v)

/-! ### CMP and JMP (spec/44_cmp_jmp.md) -/

/-- R180: CMP replaces F entirely; the comparison is unsigned (D10). -/
def Obligations.CmpRecomputesFlags : Prop :=
  ∀ (s : State),
    (∀ x y, ∃ t, exec (.cmp (some x) (some y)) s = .next t ∧
      ((s.reg x).toNat < (s.reg y).toNat → t.reg .f = s.cfg.flagBit .l ||| s.cfg.flagBit .n) ∧
      ((s.reg y).toNat < (s.reg x).toNat → t.reg .f = s.cfg.flagBit .g ||| s.cfg.flagBit .n) ∧
      (s.reg x = s.reg y → s.reg x ≠ 0 → t.reg .f = s.cfg.flagBit .e) ∧
      (s.reg x = 0 → s.reg y = 0 → t.reg .f = s.cfg.flagBit .e ||| s.cfg.flagBit .z) ∧
      SameRegs [.f] s t ∧ SameMem s t ∧ SameStk s t ∧ SameRest s t) ∧
    (∀ y, ∃ t, exec (.cmp none y) s = .next t ∧ FaultedOnly (.invalidOperand .cmp .arg1) s t) ∧
    (∀ x, ∃ t, exec (.cmp (some x) none) s = .next t ∧ FaultedOnly (.invalidOperand .cmp .arg2) s t) ∧
    ∀ (C : Constants) (x y : Option Reg),
      C.opCode (Instr.cmp x y).opcode = C.op.cmp ∧ encodeArg1 C (.cmp x y) = encodeReg C x ∧
        encodeArg2 C (.cmp x y) = encodeReg C y

/-- R181: the source's table under CFG-EX. -/
def Obligations.CmpOutcomeTable : Prop :=
  cmpFlags cfgEx 1 2 = 0x09 ∧ cmpFlags cfgEx 2 1 = 0x0A ∧ cmpFlags cfgEx 1 1 = 0x04 ∧ cmpFlags cfgEx 0 0 = 0x14 ∧
    cmpFlags cfgEx 0 1 = 0x09

/-- 10_state.md section 3 (the flag table): under a valid configuration each flag is set exactly when its condition
holds, exactly one of L, G and E is set, Z implies E, and a bit that belongs to no flag is clear. -/
def Obligations.CmpSetsEachFlagByItsCondition : Prop :=
  ∀ (C : Constants) (va vb : Byte), configValid C = true →
    (cmpFlags C va vb &&& C.flagBit .l ≠ 0 ↔ va.toNat < vb.toNat) ∧
    (cmpFlags C va vb &&& C.flagBit .g ≠ 0 ↔ vb.toNat < va.toNat) ∧
    (cmpFlags C va vb &&& C.flagBit .e ≠ 0 ↔ va = vb) ∧
    (cmpFlags C va vb &&& C.flagBit .z ≠ 0 ↔ va = 0 ∧ vb = 0) ∧
    (cmpFlags C va vb &&& C.flagBit .n ≠ 0 ↔ va ≠ vb) ∧
    (∀ bit : Byte, (∀ f, bit &&& C.flagBit f = 0) → cmpFlags C va vb &&& bit = 0)

/-- R182: JMP; a zero mask is never taken, and the None check comes first. -/
def Obligations.JmpTestsFlagsAndMask : Prop :=
  ∀ (s : State) (mask : Byte),
    (∀ r, s.reg .f &&& mask ≠ 0 → ∃ t, exec (.jmp mask (some r)) s = .next t ∧ t.reg .i = s.reg r ∧
      SameRegs [.i] s t ∧ SameMem s t ∧ SameStk s t ∧ SameRest s t) ∧
    (∀ r, s.reg .f &&& mask = 0 → exec (.jmp mask (some r)) s = .next s) ∧
    (∀ r, exec (.jmp 0 (some r)) s = .next s) ∧
    (∃ t, exec (.jmp mask none) s = .next t ∧ FaultedOnly (.invalidOperand .jmp .arg2) s t) ∧
    ∀ (C : Constants) (r : Option Reg),
      C.opCode (Instr.jmp mask r).opcode = C.op.jmp ∧ encodeArg1 C (.jmp mask r) = mask ∧
        encodeArg2 C (.jmp mask r) = encodeReg C r

/-! ### SYS (spec/45_sys.md) -/

/-- R196: dispatch by exact code; every other code is UnsupportedSyscall, with no request issued. -/
def Obligations.SyscallDispatchIsExact : Prop :=
  ∀ (s : State) (code : Byte) (r : Option Reg),
    ((∀ n, s.cfg.sysCode n ≠ some code) →
      ∃ t, exec (.sys code r) s = .next t ∧ FaultedOnly (.unsupportedSyscall code) s t) ∧
    (sysValid s.cfg = true → ∀ n, s.cfg.syscallOf code = some n ↔ s.cfg.sysCode n = some code)

/-- 45_sys.md, R191 and R194: every syscall but EXIT needs a result register, and the check issues no request. -/
def Obligations.SysNeedsResultRegister : Prop :=
  ∀ (s : State) (code : Byte) (n : Syscall), s.cfg.syscallOf code = some n → n ≠ .exit →
    ∃ t, exec (.sys code none) s = .next t ∧ FaultedOnly (.invalidOperand .sys .arg2) s t

/-- 45_sys.md section 5, EXIT: it halts with the code in A, writes no register, ignores its result operand, and no further step
runs. The name of the stop that `step` then answers is the model's (log 6). -/
def Obligations.ExitHaltsWithCodeInA : Prop :=
  ∀ (s : State) (code : Byte) (r : Option Reg), s.cfg.syscallOf code = some .exit →
    ∃ t, exec (.sys code r) s = .next t ∧ t.outcome = .halted (s.reg .a) ∧ SameRegs [] s t ∧ SameMem s t ∧
      SameStk s t ∧ t.prog = s.prog ∧ SameInputs s t ∧ SameHostPort s t ∧
      step t = .fault (.blockHalted (s.reg .a))

/-- R199: the scan of OPEN's path, up to the first 0x00, without wrapping past 0xFF (D16). -/
def Obligations.PathScanStopsAtTerminator : Prop :=
  ∀ (s : State) (a : Byte),
    (∀ n, a.toNat + n ≤ 255 → s.memByte (BitVec.ofNat 8 (a.toNat + n)) = 0 →
      (∀ k, k < n → s.memByte (BitVec.ofNat 8 (a.toNat + k)) ≠ 0) →
      ∃ path, s.readCString a = .ok path ∧ path.length = n ∧
        ∀ k, k < n → path[k]? = some (s.memByte (BitVec.ofNat 8 (a.toNat + k)))) ∧
    ((∀ k, a.toNat + k ≤ 255 → s.memByte (BitVec.ofNat 8 (a.toNat + k)) ≠ 0) →
      s.readCString a = .error (.outOfBounds a.toNat (256 - a.toNat)))

/-- 45_sys.md section 5, OPEN: a descriptor of at most 255 becomes the result and enters the table, and nothing else
changes. -/
def Obligations.OpenReturnsDescriptor : Prop :=
  ∀ (s : State) (code : Byte) (r : Reg) (path : List Byte) (fd : Nat),
    s.cfg.syscallOf code = some .openFile → s.readCString (s.reg .a) = .ok path →
    s.answer (.openFile path) = .opened fd → fd ≤ 255 →
    ∃ t, exec (.sys code (some r)) s = .next t ∧ (t.reg r).toNat = fd ∧ SameRegs [r] s t ∧ SameMem s t ∧
      SameStk s t ∧ t.prog = s.prog ∧ t.outcome = s.outcome ∧ SameInputs s t ∧ Asked (.openFile path) s t ∧
      ∀ x, x ∈ t.fdtable ↔ x = fd ∨ x ∈ s.fdtable

/-- 45_sys.md section 5, OPEN: its three faults. An unterminated path issues no request; a descriptor above 255 stays in
the table; no fault writes a register, a cell or the store. -/
def Obligations.OpenFaults : Prop :=
  ∀ (s : State) (code : Byte) (r : Reg), s.cfg.syscallOf code = some .openFile →
    (∀ k, s.readCString (s.reg .a) = .error k →
      ∃ t, exec (.sys code (some r)) s = .next t ∧ FaultedOnly k s t) ∧
    (∀ path e, s.readCString (s.reg .a) = .ok path → s.answer (.openFile path) = .err e →
      ∃ t, exec (.sys code (some r)) s = .next t ∧ FaultedAfter (.openFile path) (.hostIoError e) s t ∧
        t.fdtable = s.fdtable) ∧
    (∀ path fd, s.readCString (s.reg .a) = .ok path → s.answer (.openFile path) = .opened fd → 255 < fd →
      ∃ t, exec (.sys code (some r)) s = .next t ∧
        FaultedAfter (.openFile path) (.fileDescriptorOverflow fd) s t ∧
        ∀ x, x ∈ t.fdtable ↔ x = fd ∨ x ∈ s.fdtable)

/-- 45_sys.md section 5, READ_CODE: the decoded words overwrite the entries from `start`, nothing is shifted, the store
grows to max(ProgLen, start + n), and the result is the number written. -/
def Obligations.ReadCodeOverwritesEntries : Prop :=
  ∀ (s : State) (code : Byte) (r : Reg) (bytes : List Byte) (is : List Instr),
    s.cfg.syscallOf code = some .readCode → (s.reg .b).toNat + (s.reg .c).toNat ≤ 256 →
    (s.reg .b).toNat ≤ s.progLen → s.answer (.readFile (s.reg .a) (3 * (s.reg .c).toNat)) = .data bytes →
    bytes.length ≤ 3 * (s.reg .c).toNat → decodeStream s.cfg bytes = .ok is →
    ∃ t, exec (.sys code (some r)) s = .next t ∧ (t.reg r).toNat = is.length ∧ 3 * is.length = bytes.length ∧
      t.progLen = max s.progLen ((s.reg .b).toNat + is.length) ∧
      (∀ k, k < is.length → t.prog[(s.reg .b).toNat + k]? = is[k]?) ∧
      (∀ k, k < (s.reg .b).toNat ∨ (s.reg .b).toNat + is.length ≤ k → t.prog[k]? = s.prog[k]?) ∧
      SameRegs [r] s t ∧ SameMem s t ∧ SameStk s t ∧ t.outcome = s.outcome ∧ SameInputs s t ∧
      t.fdtable = s.fdtable ∧ Asked (.readFile (s.reg .a) (3 * (s.reg .c).toNat)) s t

/-- 45_sys.md section 5, READ_CODE: a range past 256 or a gap past ProgLen faults before any request; a host error, a
partial word or a bad word faults after it and leaves the whole store unchanged. Which bad
word is reported when several are is the model's (log 11). -/
def Obligations.ReadCodeFaults : Prop :=
  ∀ (s : State) (code : Byte) (r : Reg), s.cfg.syscallOf code = some .readCode →
    (256 < (s.reg .b).toNat + (s.reg .c).toNat ∨ s.progLen < (s.reg .b).toNat →
      ∃ t, exec (.sys code (some r)) s = .next t ∧
        FaultedOnly (.outOfBounds (s.reg .b).toNat (s.reg .c).toNat) s t) ∧
    ((s.reg .b).toNat + (s.reg .c).toNat ≤ 256 → (s.reg .b).toNat ≤ s.progLen →
      (∀ e, s.answer (.readFile (s.reg .a) (3 * (s.reg .c).toNat)) = .err e →
        ∃ t, exec (.sys code (some r)) s = .next t ∧ t.fdtable = s.fdtable ∧
          FaultedAfter (.readFile (s.reg .a) (3 * (s.reg .c).toNat)) (.hostIoError e) s t) ∧
      (∀ bytes, s.answer (.readFile (s.reg .a) (3 * (s.reg .c).toNat)) = .data bytes →
        bytes.length ≤ 3 * (s.reg .c).toNat →
        (bytes.length % 3 ≠ 0 →
          ∃ t, exec (.sys code (some r)) s = .next t ∧ t.fdtable = s.fdtable ∧
            FaultedAfter (.readFile (s.reg .a) (3 * (s.reg .c).toNat)) (.decodeError .partialWord) s t) ∧
        (∀ e, decodeStream s.cfg bytes = .error e →
          ∃ t, exec (.sys code (some r)) s = .next t ∧ t.fdtable = s.fdtable ∧
            FaultedAfter (.readFile (s.reg .a) (3 * (s.reg .c).toNat)) (.decodeError e) s t)))

/-- R201: READ_MEMORY, its result, its frame and its faults. -/
def Obligations.ReadMemoryWritesReturnedBytes : Prop :=
  ∀ (s : State) (code : Byte) (r : Reg), s.cfg.syscallOf code = some .readMemory →
    (256 < (s.reg .b).toNat + (s.reg .c).toNat →
      ∃ t, exec (.sys code (some r)) s = .next t ∧
        FaultedOnly (.outOfBounds (s.reg .b).toNat (s.reg .c).toNat) s t) ∧
    ((s.reg .b).toNat + (s.reg .c).toNat ≤ 256 →
      (∀ e, s.answer (.readFile (s.reg .a) (s.reg .c).toNat) = .err e →
        ∃ t, exec (.sys code (some r)) s = .next t ∧ t.fdtable = s.fdtable ∧
          FaultedAfter (.readFile (s.reg .a) (s.reg .c).toNat) (.hostIoError e) s t) ∧
      (∀ bytes, s.answer (.readFile (s.reg .a) (s.reg .c).toNat) = .data bytes → bytes.length ≤ (s.reg .c).toNat →
        ∃ t, exec (.sys code (some r)) s = .next t ∧ (t.reg r).toNat = bytes.length ∧
          (∀ k, k < bytes.length →
            bytes[k]? = some (t.memByte (BitVec.ofNat 8 ((s.reg .b).toNat + k)))) ∧
          (∀ addr : Byte, addr.toNat < (s.reg .b).toNat ∨ (s.reg .b).toNat + bytes.length ≤ addr.toNat →
            t.memByte addr = s.memByte addr) ∧
          SameRegs [r] s t ∧ SameStk s t ∧ t.prog = s.prog ∧ t.outcome = s.outcome ∧ SameInputs s t ∧
          t.fdtable = s.fdtable ∧ Asked (.readFile (s.reg .a) (s.reg .c).toNat) s t))

/-- R202: WRITE sends the bytes of data memory from B, C of them, in one request, and returns the host's count. -/
def Obligations.WriteSendsDataMemory : Prop :=
  ∀ (s : State) (code : Byte) (r : Reg), s.cfg.syscallOf code = some .write →
    (256 < (s.reg .b).toNat + (s.reg .c).toNat →
      ∃ t, exec (.sys code (some r)) s = .next t ∧
        FaultedOnly (.outOfBounds (s.reg .b).toNat (s.reg .c).toNat) s t) ∧
    ((s.reg .b).toNat + (s.reg .c).toNat ≤ 256 →
      ∃ data, data.length = (s.reg .c).toNat ∧
        (∀ k, k < data.length → data[k]? = some (s.memByte (BitVec.ofNat 8 ((s.reg .b).toNat + k)))) ∧
        (∀ e, s.answer (.writeFile (s.reg .a) data) = .err e →
          ∃ t, exec (.sys code (some r)) s = .next t ∧ t.fdtable = s.fdtable ∧
            FaultedAfter (.writeFile (s.reg .a) data) (.hostIoError e) s t) ∧
        (∀ n, s.answer (.writeFile (s.reg .a) data) = .wrote n → n ≤ data.length →
          ∃ t, exec (.sys code (some r)) s = .next t ∧ (t.reg r).toNat = n ∧ SameRegs [r] s t ∧ SameMem s t ∧
            SameStk s t ∧ t.prog = s.prog ∧ t.outcome = s.outcome ∧ SameInputs s t ∧ t.fdtable = s.fdtable ∧
            Asked (.writeFile (s.reg .a) data) s t))

/-- 45_sys.md section 5, SLEEP: it asks the host to sleep for A seconds; "No source gives the result value. This spec writes 0
to the result register." -/
def Obligations.SleepWritesZero : Prop :=
  ∀ (s : State) (code : Byte) (r : Reg), s.cfg.syscallOf code = some .sleep →
    s.answer (.sleep (s.reg .a)) = .slept →
    ∃ t, exec (.sys code (some r)) s = .next t ∧ t.reg r = 0 ∧ SameRegs [r] s t ∧ SameMem s t ∧ SameStk s t ∧
      t.prog = s.prog ∧ t.outcome = s.outcome ∧ SameInputs s t ∧ t.fdtable = s.fdtable ∧
      Asked (.sleep (s.reg .a)) s t

/-- 45_sys.md section 6 (R205) and R190: the only instruction that may not end in a next state is a SYS whose host never
answers or answers outside the ranges of R190. The names of the two stops are the model's (logs 4 and 5). -/
def Obligations.OnlyTheHostCanStopAnInstruction : Prop :=
  ∀ (i : Instr) (s : State),
    (∃ t, exec i s = .next t) ∨
    (∃ code r req, i = .sys code (some r) ∧ exec i s = .fault (.hostNeverAnswers req) ∧ s.answer req = .silent) ∨
    (∃ code r req, i = .sys code (some r) ∧ exec i s = .refused (.hostOutsideContract req (s.answer req)) ∧
      s.answer req ≠ .silent ∧ allowed req (s.answer req) = false)

/-- Log 3 (the model's choice of a free answer once the script `hostIn` is empty): every free answer lies in the ranges
of R190, so with an empty script every instruction ends in a next state. -/
def Obligations.FreeAnswersKeepTheContract : Prop :=
  (∀ n req, allowed req (freeAnswer n req) = true) ∧
  ∀ (i : Instr) (s : State), s.hostIn = [] → ∃ t, exec i s = .next t

/-! ### The whole machine -/

/-- R224: an instruction whose syscall code, if it is a SYS, is supported raises InvalidOperand exactly where the table
requires a register and the operand is None. -/
def Obligations.InvalidOperandExactlyOnNone : Prop :=
  ∀ (i : Instr) (s : State), s.outcome = .running →
    (∀ code r, i = .sys code r → s.cfg.syscallOf code ≠ none) →
    (i.wellFormed s.cfg = false ↔
      ∃ t pos, exec i s = .next t ∧ FaultedOnly (.invalidOperand i.opcode pos) s t)

/-- 10_state.md section 1 (the written registers of R24's table): a register that differs after an instruction is one the
table writes. -/
def Obligations.OnlyTabledRegistersAreWritten : Prop :=
  ∀ (i : Instr) (s t : State), exec i s = .next t → SameRegs (Instr.writes s.cfg i) s t

/-- 44_cmp_jmp.md, "Control transfer in general", which the spec derives from its other rules: the instruction pointer
changes only by the advance, a taken JMP, and a destination register I. -/
def Obligations.InstructionPointerChangesOnlyByThese : Prop :=
  ∀ (s t : State), step s = .next t → t.reg .i ≠ s.reg .i →
    ∃ ins, s.fetch = some ins ∧
      (t.reg .i = s.reg .i + 1 ∨
       (∃ mask r, ins = .jmp mask (some r) ∧ s.reg .f &&& mask ≠ 0 ∧ t.reg .i = s.advance.reg r) ∨
       (∃ v, ins = .imm (some .i) v) ∨ (∃ y, ins = .add (some .i) y) ∨ (∃ y, ins = .ldm (some .i) y) ∨
       (∃ y, ins = .stk (some .i) y) ∨
       (∃ code, ins = .sys code (some .i) ∧ s.cfg.syscallOf code ≠ some .exit))

/-- 20_memory.md section 2 (the writers R61 names): data memory is written by STM and READ_MEMORY only. -/
def Obligations.OnlyStmAndReadMemoryWriteMemory : Prop :=
  ∀ (i : Instr) (s t : State), exec i s = .next t → i.opcode ≠ .stm →
    (∀ code r, i = .sys code r → s.cfg.syscallOf code ≠ some .readMemory) → t.mem = s.mem

/-- 20_memory.md section 3 (only STK reaches the stack array): no other instruction writes it, and none reads it, for
what it does is the same whatever the array holds. -/
def Obligations.OnlyStkReachesTheStack : Prop :=
  ∀ (i : Instr) (s : State) (other : Memory), i.opcode ≠ .stk →
    (∀ t, exec i s = .next t → t.stk = s.stk) ∧
    exec i { s with stk := other } = mapNext (fun t => { t with stk := other }) (exec i s)

/-- 20_memory.md section 6 and 40_engine.md: only READ_CODE writes the instruction store, and no instruction ever shortens
it. -/
def Obligations.OnlyReadCodeWritesTheStore : Prop :=
  ∀ (i : Instr) (s t : State), exec i s = .next t →
    s.progLen ≤ t.progLen ∧
    ((∀ code r, i = .sys code r → s.cfg.syscallOf code ≠ some .readCode) → t.prog = s.prog)

/-- R222: Halt is raised only by SYS EXIT, with the code x[A] read at that step, and is no fault. -/
def Obligations.HaltOnlyByExit : Prop :=
  ∀ (s t : State) (c : Byte), step s = .next t → t.outcome = .halted c →
    (∃ code r, s.fetch = some (.sys code r) ∧ s.cfg.syscallOf code = some .exit ∧ c = s.reg .a) ∧
      ∀ k, t.outcome ≠ .faulted k

/-- 60_exceptions.md section 2: faults are precise. "That the faulting instruction's own writes are suppressed is the spec's
decision" (D13). -/
def Obligations.FaultsArePrecise : Prop :=
  ∀ (s t : State) (k : FaultKind), step s = .next t → t.outcome = .faulted k →
    ((∃ v, k = .programCounterOutOfRange v) → t.reg .i = s.reg .i) ∧
    ((∀ v, k ≠ .programCounterOutOfRange v) → (t.reg .i).toNat = ((s.reg .i).toNat + 1) % 256) ∧
    SameRegs [.i] s t ∧ SameMem s t ∧ SameStk s t ∧ t.prog = s.prog ∧
    ((t.hostOut = s.hostOut ∧ t.hostIn = s.hostIn) ∨ ∃ req, Asked req s t)

/-- 45_sys.md R194 and 60_exceptions.md R227 (check order): a fault of the code, the result register or an argument range
issues no host request; a host error, a descriptor overflow or a bad word comes after exactly one. -/
def Obligations.FaultOrderAroundTheHostRequest : Prop :=
  ∀ (i : Instr) (s t : State) (k : FaultKind), s.outcome = .running → exec i s = .next t → t.outcome = .faulted k →
    ((∃ c, k = .unsupportedSyscall c) ∨ (∃ op pos, k = .invalidOperand op pos) ∨ (∃ a n, k = .outOfBounds a n) →
      SameHostPort s t) ∧
    ((∃ e, k = .hostIoError e) ∨ (∃ fd, k = .fileDescriptorOverflow fd) ∨ (∃ e, k = .decodeError e) →
      ∃ req, Asked req s t) ∧
    k ≠ .decodeError .config

/-- 45_sys.md section 1: an instruction issues at most one host request, only SYS issues one, and an EXIT issues none. -/
def Obligations.AtMostOneRequestPerInstruction : Prop :=
  ∀ (i : Instr) (s t : State), exec i s = .next t →
    (t.hostOut = s.hostOut ∨
      ∃ code r req, i = .sys code (some r) ∧ s.cfg.syscallOf code ≠ some .exit ∧ Asked req s t)

/-- 45_sys.md section 4: a descriptor, once in the table, stays; only OPEN adds one. -/
def Obligations.DescriptorsAreNeverClosed : Prop :=
  ∀ (i : Instr) (s t : State), exec i s = .next t →
    (∀ fd, fd ∈ s.fdtable → fd ∈ t.fdtable) ∧
    ((∀ code r, i = .sys code r → s.cfg.syscallOf code ≠ some .openFile) → t.fdtable = s.fdtable)

/-- 60_exceptions.md section 1 (the first column of R221's table, and its words on codes 0 and 1): the status code of every
outcome, whatever information it records. The numbers are the spec's choice (D41). -/
def Obligations.StatusCodes : Prop :=
  Latch.running.statusCode = 0 ∧
  (∀ code, (Latch.halted code).statusCode = 1) ∧
  (∀ index, (Latch.faulted (.programCounterOutOfRange index)).statusCode = 2) ∧
  (∀ op pos, (Latch.faulted (.invalidOperand op pos)).statusCode = 3) ∧
  (∀ sp, (Latch.faulted (.stackOverflow sp)).statusCode = 4) ∧
  (∀ sp, (Latch.faulted (.stackUnderflow sp)).statusCode = 5) ∧
  (∀ start len, (Latch.faulted (.outOfBounds start len)).statusCode = 6) ∧
  (∀ code, (Latch.faulted (.unsupportedSyscall code)).statusCode = 7) ∧
  (∀ fd, (Latch.faulted (.fileDescriptorOverflow fd)).statusCode = 8) ∧
  (∀ e, (Latch.faulted (.hostIoError e)).statusCode = 9) ∧
  (∀ kind, (Latch.faulted (.decodeError kind)).statusCode = 10)

/-- The construction's state meets the invariant, whatever the configuration, policy and program. The form
of the lists is the model's (logs 14 and 17). -/
def Obligations.ConstructionMeetsInvariant : Prop :=
  ∀ (C : Constants) (p : StackPolicy) (prog : List Instr), (State.construct C p prog).Inv

/-- Every step keeps the invariant, and with it the construction inputs (R6): both arrays stay in canonical form inside
their 256 cells, the descriptor table stays a set in order, and DecodeError(config) is latched exactly under a malformed
configuration (R262). The form of the lists is the model's (logs 14 and 17). -/
def Obligations.StepKeepsInvariant : Prop :=
  ∀ s t : State, s.Inv → step s = .next t → t.Inv ∧ SameInputs s t

/-- From every state that meets the invariant, whatever the host answers, every reached state meets it, has the same
configuration and policy, a store no shorter and every descriptor still open; and a malformed configuration never takes a
step. The form of the lists is the model's (logs 14 and 17). -/
def Obligations.EveryReachedStateKeepsPromises : Prop :=
  ∀ s t : State, s.Inv → Reaches s t →
    t.Inv ∧ SameInputs s t ∧ s.progLen ≤ t.progLen ∧ (∀ fd, fd ∈ s.fdtable → fd ∈ t.fdtable) ∧
    (configValid s.cfg = false → t = s)
end

