-- ==== Sys2Proof/Laws/Decode.lean ====
section
/-! SUPPORT. Lemmas about code lookups and decoding: what a lookup finds, and which errors decoding can report. -/
namespace Sys2Proof

theorem Reg.mem_all (r : Reg) : r ∈ Reg.all := by cases r <;> decide
theorem Flag.mem_all (f : Flag) : f ∈ Flag.all := by cases f <;> decide
theorem Opcode.mem_all (m : Opcode) : m ∈ Opcode.all := by cases m <;> decide
theorem Syscall.mem_all (n : Syscall) : n ∈ Syscall.all := by cases n <;> decide

theorem regOf_some {C : Constants} {v : Byte} {r : Reg} (h : C.regOf v = some r) : C.regCode r = v := by
  simpa using List.find?_some h

theorem regOf_none {C : Constants} {v : Byte} : C.regOf v = none ↔ ∀ r, C.regCode r ≠ v := by
  simp only [Constants.regOf, List.find?_eq_none, beq_iff_eq]
  exact ⟨fun h r => h r (Reg.mem_all r), fun h r _ => h r⟩

theorem opcodeOf_some {C : Constants} {v : Byte} {m : Opcode} (h : C.opcodeOf v = some m) : C.opCode m = v := by
  simpa using List.find?_some h

theorem opcodeOf_none {C : Constants} {v : Byte} : C.opcodeOf v = none ↔ ∀ m, C.opCode m ≠ v := by
  simp only [Constants.opcodeOf, List.find?_eq_none, beq_iff_eq]
  exact ⟨fun h m => h m (Opcode.mem_all m), fun h m _ => h m⟩

theorem syscallOf_some {C : Constants} {v : Byte} {n : Syscall} (h : C.syscallOf v = some n) :
    C.sysCode n = some v := by
  simpa using List.find?_some h

theorem syscallOf_none {C : Constants} {v : Byte} : C.syscallOf v = none ↔ ∀ n, C.sysCode n ≠ some v := by
  simp only [Constants.syscallOf, List.find?_eq_none, beq_iff_eq]
  exact ⟨fun h n => h n (Syscall.mem_all n), fun h n _ => h n⟩

/-- A register byte fails to decode only as an unknown register byte, and reports itself. -/
theorem decodeReg_error {C : Constants} {v : Byte} {e : DecodeError} (h : decodeReg C v = .error e) :
    e = .register v ∧ v ≠ 0 ∧ ∀ r, C.regCode r ≠ v := by
  unfold decodeReg at h
  split at h
  · cases h
  · rename_i hv
    split at h
    · cases h
    · rename_i hn
      cases h
      exact ⟨rfl, hv, regOf_none.mp hn⟩

theorem decodeOne_ok {C : Constants} {v : Byte} {mk : Option Reg → Instr} {i : Instr}
    (h : decodeOne C v mk = .ok i) : ∃ x, decodeReg C v = .ok x ∧ i = mk x := by
  unfold decodeOne at h
  split at h
  · cases h
  · rename_i x hx
    cases h
    exact ⟨x, hx, rfl⟩

theorem decodeTwo_ok {C : Constants} {v w : Byte} {mk : Option Reg → Option Reg → Instr} {i : Instr}
    (h : decodeTwo C v w mk = .ok i) : ∃ x y, decodeReg C v = .ok x ∧ decodeReg C w = .ok y ∧ i = mk x y := by
  unfold decodeTwo at h
  split at h
  · cases h
  · rename_i x hx
    split at h
    · cases h
    · rename_i y hy
      cases h
      exact ⟨x, y, hx, hy, rfl⟩

theorem decodeOne_error {C : Constants} {v : Byte} {mk : Option Reg → Instr} {e : DecodeError}
    (h : decodeOne C v mk = .error e) : decodeReg C v = .error e := by
  unfold decodeOne at h
  split at h
  · rename_i e' he
    cases h
    exact he
  · cases h

/-- arg1 is reported before arg2. -/
theorem decodeTwo_error {C : Constants} {v w : Byte} {mk : Option Reg → Option Reg → Instr} {e : DecodeError}
    (h : decodeTwo C v w mk = .error e) :
    decodeReg C v = .error e ∨ (∃ x, decodeReg C v = .ok x) ∧ decodeReg C w = .error e := by
  unfold decodeTwo at h
  split at h
  · rename_i e' he
    cases h
    exact .inl he
  · rename_i x hx
    split at h
    · rename_i e' he
      cases h
      exact .inr ⟨⟨x, hx⟩, he⟩
    · cases h

/-- Decoding the fields of a word never reports a configuration error. -/
theorem decodeFields_ne_config (C : Constants) (op a1 a2 : Byte) : decodeFields C op a1 a2 ≠ .error .config := by
  intro h
  have hreg : ∀ v, decodeReg C v ≠ .error .config := fun v hv => by
    have := (decodeReg_error hv).1; cases this
  unfold decodeFields at h
  split at h
  all_goals first
    | cases h
    | exact hreg _ (decodeOne_error h)
    | exact (decodeTwo_error h).elim (hreg _) fun k => hreg _ k.2

theorem decode_ne_config (C : Constants) (bytes : List Byte) : decode C bytes ≠ .error .config := by
  intro h
  unfold decode at h
  split at h
  · split at h
    · cases h
    · rename_i e he
      cases h
      exact decodeFields_ne_config _ _ _ _ he
  · cases h

/-- A stream fails to decode only as READ_CODE's three kinds (R200), never as a configuration error. -/
theorem decodeStream_ne_config (C : Constants) (bytes : List Byte) : decodeStream C bytes ≠ .error .config := by
  have words : ∀ (n : Nat) (bytes : List Byte), bytes.length < n → decodeWords C bytes ≠ .error .config := by
    intro n
    induction n with
    | zero => intro bytes hn; omega
    | succ n ih =>
      intro bytes hn h
      match bytes, hn, h with
      | [], _, h => cases h
      | [_], _, h => cases h
      | [_, _], _, h => cases h
      | b0 :: b1 :: b2 :: rest, hn, h =>
        simp only [decodeWords] at h
        split at h
        · rename_i e he
          cases h
          exact decode_ne_config _ _ he
        · split at h
          · rename_i e he
            cases h
            exact ih rest (by simp only [List.length_cons] at hn; omega) he
          · cases h
  unfold decodeStream
  split
  · exact words (bytes.length + 1) bytes (by omega)
  · intro h; cases h

/-- Three bytes give one instruction. -/
theorem decodeWords_length (C : Constants) (n : Nat) (bytes : List Byte) (hn : bytes.length < n) (is : List Instr)
    (h : decodeWords C bytes = .ok is) : 3 * is.length = bytes.length := by
  induction n generalizing bytes is with
  | zero => omega
  | succ n ih =>
    match bytes, hn, h with
    | [], _, h => cases h; rfl
    | [_], _, h => cases h
    | [_, _], _, h => cases h
    | b0 :: b1 :: b2 :: rest, hn, h =>
      simp only [decodeWords] at h
      split at h
      · cases h
      · split at h
        · cases h
        · rename_i is' his
          cases h
          have := ih rest (by simp only [List.length_cons] at hn; omega) is' his
          simp only [List.length_cons]; omega

theorem decodeStream_length {C : Constants} {bytes : List Byte} {is : List Instr}
    (h : decodeStream C bytes = .ok is) : 3 * is.length = bytes.length := by
  unfold decodeStream at h
  split at h
  · exact decodeWords_length C (bytes.length + 1) bytes (by omega) is h
  · cases h

end Sys2Proof
end

