-- ==== Sys2Proof/Laws/Config.lean ====
section
/-! SUPPORT. What a valid `Constants` gives (spec/70_reset_and_hazards.md R262): distinct codes, single bits, and lookups
that undo the code maps. -/
namespace Sys2Proof.Machine

theorem configValid_parts {C : Constants} (h : configValid C = true) :
    regsValid C = true ∧ flagsValid C = true ∧ opsValid C = true ∧ sysValid C = true ∧ layoutValid C = true := by
  simp only [configValid, Bool.and_eq_true] at h
  tauto

theorem regCode_injective {C : Constants} (h : regsValid C = true) {r q : Reg} (e : C.regCode r = C.regCode q) :
    r = q := by
  simp only [regsValid, Bool.and_eq_true, distinct, decide_eq_true_eq] at h
  exact List.inj_on_of_nodup_map h.2 (Reg.mem_all r) (Reg.mem_all q) e

theorem flagBit_injective {C : Constants} (h : flagsValid C = true) {f k : Flag} (e : C.flagBit f = C.flagBit k) :
    f = k := by
  simp only [flagsValid, Bool.and_eq_true, distinct, decide_eq_true_eq] at h
  exact List.inj_on_of_nodup_map h.2 (Flag.mem_all f) (Flag.mem_all k) e

theorem opCode_injective {C : Constants} (h : opsValid C = true) {m n : Opcode} (e : C.opCode m = C.opCode n) :
    m = n := by
  simp only [opsValid, distinct, decide_eq_true_eq] at h
  exact List.inj_on_of_nodup_map h (Opcode.mem_all m) (Opcode.mem_all n) e

theorem singleBit_regCode {C : Constants} (h : regsValid C = true) (r : Reg) : singleBit (C.regCode r) = true := by
  simp only [regsValid, Bool.and_eq_true, List.all_eq_true, List.mem_map] at h
  exact h.1 _ ⟨r, Reg.mem_all r, rfl⟩

theorem singleBit_flagBit {C : Constants} (h : flagsValid C = true) (f : Flag) : singleBit (C.flagBit f) = true := by
  simp only [flagsValid, Bool.and_eq_true, List.all_eq_true, List.mem_map] at h
  exact h.1 _ ⟨f, Flag.mem_all f, rfl⟩

theorem singleBit_ne_zero {v : Byte} : singleBit v = true → v ≠ 0 := by
  revert v
  decide

theorem singleBit_and_eq_zero {v w : Byte} (hv : singleBit v = true) (hw : singleBit w = true) (h : v ≠ w) :
    v &&& w = 0 := by
  simp only [singleBit, List.any_eq_true, List.mem_range, beq_iff_eq] at hv hw
  obtain ⟨j, hj, rfl⟩ := hv
  obtain ⟨k, hk, rfl⟩ := hw
  interval_cases j <;> interval_cases k <;> first | rfl | exact absurd rfl h

/-- A register operand's byte decodes to that operand, None included (R95). -/
theorem decodeReg_encodeReg {C : Constants} (h : regsValid C = true) (x : Option Reg) :
    decodeReg C (encodeReg C x) = .ok x := by
  cases x with
  | none => simp [encodeReg, decodeReg]
  | some r =>
    have h0 := singleBit_ne_zero (singleBit_regCode h r)
    unfold decodeReg encodeReg
    rw [if_neg h0]
    cases hr : C.regOf (C.regCode r) with
    | none => exact absurd rfl (regOf_none.mp hr r)
    | some q => simp only [regCode_injective h (regOf_some hr)]

theorem opcodeOf_opCode {C : Constants} (h : opsValid C = true) (m : Opcode) : C.opcodeOf (C.opCode m) = some m := by
  cases hr : C.opcodeOf (C.opCode m) with
  | none => exact absurd rfl (opcodeOf_none.mp hr m)
  | some q => simp [opCode_injective h (opcodeOf_some hr)]

/-- The six layouts that R262 accepts. -/
theorem layoutValid_cases {C : Constants} (h : layoutValid C = true) :
    [C.layout.pOp, C.layout.pArg1, C.layout.pArg2] ∈
      [[0, 1, 2], [0, 2, 1], [1, 0, 2], [1, 2, 0], [2, 0, 1], [2, 1, 0]] := by
  simp [layoutValid] at h ⊢
  obtain ⟨h0, h1, h2⟩ := h
  rcases h0 with h0 | h0 | h0 <;> rcases h1 with h1 | h1 | h1 <;> rcases h2 with h2 | h2 | h2 <;>
    simp [← h0, ← h1, ← h2] <;> omega

end Sys2Proof.Machine
end

