-- ==== Sys2Proof/Laws/State.lean ====
section
/-! SUPPORT. Field lemmas: what each named update of the state leaves and writes, one per field, so that no proof unfolds
a record update. -/
namespace Sys2Proof.Machine

/-! ### Registers -/

theorem Regs.get_set (x : Regs) (r q : Reg) (v : Byte) : (x.set r v).get q = if q = r then v else x.get q := by
  cases r <;> cases q <;> rfl

theorem State.reg_setReg (s : State) (r q : Reg) (v : Byte) :
    (s.setReg r v).reg q = if q = r then v else s.reg q := Regs.get_set s.regs r q v

@[simp] theorem State.reg_setReg_self (s : State) (r : Reg) (v : Byte) : (s.setReg r v).reg r = v := by
  simp [State.reg_setReg]

theorem State.reg_setReg_of_ne (s : State) {r q : Reg} (h : q ≠ r) (v : Byte) : (s.setReg r v).reg q = s.reg q := by
  simp [State.reg_setReg, h]

@[simp] theorem State.setReg_mem (s : State) (r : Reg) (v : Byte) : (s.setReg r v).mem = s.mem := rfl
@[simp] theorem State.setReg_stk (s : State) (r : Reg) (v : Byte) : (s.setReg r v).stk = s.stk := rfl
@[simp] theorem State.setReg_prog (s : State) (r : Reg) (v : Byte) : (s.setReg r v).prog = s.prog := rfl
@[simp] theorem State.setReg_outcome (s : State) (r : Reg) (v : Byte) : (s.setReg r v).outcome = s.outcome := rfl
@[simp] theorem State.setReg_fdtable (s : State) (r : Reg) (v : Byte) : (s.setReg r v).fdtable = s.fdtable := rfl
@[simp] theorem State.setReg_cfg (s : State) (r : Reg) (v : Byte) : (s.setReg r v).cfg = s.cfg := rfl
@[simp] theorem State.setReg_policy (s : State) (r : Reg) (v : Byte) : (s.setReg r v).policy = s.policy := rfl
@[simp] theorem State.setReg_hostIn (s : State) (r : Reg) (v : Byte) : (s.setReg r v).hostIn = s.hostIn := rfl
@[simp] theorem State.setReg_hostOut (s : State) (r : Reg) (v : Byte) : (s.setReg r v).hostOut = s.hostOut := rfl
@[simp] theorem State.setReg_freeDraws (s : State) (r : Reg) (v : Byte) : (s.setReg r v).freeDraws = s.freeDraws := rfl
@[simp] theorem State.setReg_memByte (s : State) (r : Reg) (v a : Byte) : (s.setReg r v).memByte a = s.memByte a := rfl
@[simp] theorem State.setReg_stkByte (s : State) (r : Reg) (v a : Byte) : (s.setReg r v).stkByte a = s.stkByte a := rfl

/-! ### Data memory cells -/

@[simp] theorem State.setMemByte_regs (s : State) (a v : Byte) : (s.setMemByte a v).regs = s.regs := rfl
@[simp] theorem State.setMemByte_reg (s : State) (a v : Byte) (r : Reg) : (s.setMemByte a v).reg r = s.reg r := rfl
@[simp] theorem State.setMemByte_stk (s : State) (a v : Byte) : (s.setMemByte a v).stk = s.stk := rfl
@[simp] theorem State.setMemByte_prog (s : State) (a v : Byte) : (s.setMemByte a v).prog = s.prog := rfl
@[simp] theorem State.setMemByte_outcome (s : State) (a v : Byte) : (s.setMemByte a v).outcome = s.outcome := rfl
@[simp] theorem State.setMemByte_fdtable (s : State) (a v : Byte) : (s.setMemByte a v).fdtable = s.fdtable := rfl
@[simp] theorem State.setMemByte_cfg (s : State) (a v : Byte) : (s.setMemByte a v).cfg = s.cfg := rfl
@[simp] theorem State.setMemByte_policy (s : State) (a v : Byte) : (s.setMemByte a v).policy = s.policy := rfl
@[simp] theorem State.setMemByte_hostIn (s : State) (a v : Byte) : (s.setMemByte a v).hostIn = s.hostIn := rfl
@[simp] theorem State.setMemByte_hostOut (s : State) (a v : Byte) : (s.setMemByte a v).hostOut = s.hostOut := rfl
@[simp] theorem State.setMemByte_freeDraws (s : State) (a v : Byte) : (s.setMemByte a v).freeDraws = s.freeDraws := rfl
@[simp] theorem State.setMemByte_stkByte (s : State) (a v b : Byte) : (s.setMemByte a v).stkByte b = s.stkByte b := rfl

/-! ### Stack cells -/

@[simp] theorem State.setStkByte_regs (s : State) (a v : Byte) : (s.setStkByte a v).regs = s.regs := rfl
@[simp] theorem State.setStkByte_reg (s : State) (a v : Byte) (r : Reg) : (s.setStkByte a v).reg r = s.reg r := rfl
@[simp] theorem State.setStkByte_mem (s : State) (a v : Byte) : (s.setStkByte a v).mem = s.mem := rfl
@[simp] theorem State.setStkByte_prog (s : State) (a v : Byte) : (s.setStkByte a v).prog = s.prog := rfl
@[simp] theorem State.setStkByte_outcome (s : State) (a v : Byte) : (s.setStkByte a v).outcome = s.outcome := rfl
@[simp] theorem State.setStkByte_fdtable (s : State) (a v : Byte) : (s.setStkByte a v).fdtable = s.fdtable := rfl
@[simp] theorem State.setStkByte_cfg (s : State) (a v : Byte) : (s.setStkByte a v).cfg = s.cfg := rfl
@[simp] theorem State.setStkByte_policy (s : State) (a v : Byte) : (s.setStkByte a v).policy = s.policy := rfl
@[simp] theorem State.setStkByte_hostIn (s : State) (a v : Byte) : (s.setStkByte a v).hostIn = s.hostIn := rfl
@[simp] theorem State.setStkByte_hostOut (s : State) (a v : Byte) : (s.setStkByte a v).hostOut = s.hostOut := rfl
@[simp] theorem State.setStkByte_freeDraws (s : State) (a v : Byte) : (s.setStkByte a v).freeDraws = s.freeDraws := rfl
@[simp] theorem State.setStkByte_memByte (s : State) (a v b : Byte) : (s.setStkByte a v).memByte b = s.memByte b := rfl

/-! ### A host request -/

@[simp] theorem State.afterRequest_regs (s : State) (q : HostRequest) : (s.afterRequest q).regs = s.regs := rfl
@[simp] theorem State.afterRequest_reg (s : State) (q : HostRequest) (r : Reg) :
    (s.afterRequest q).reg r = s.reg r := rfl
@[simp] theorem State.afterRequest_memByte (s : State) (q : HostRequest) (b : Byte) :
    (s.afterRequest q).memByte b = s.memByte b := rfl
@[simp] theorem State.afterRequest_stkByte (s : State) (q : HostRequest) (b : Byte) :
    (s.afterRequest q).stkByte b = s.stkByte b := rfl
@[simp] theorem State.afterRequest_mem (s : State) (q : HostRequest) : (s.afterRequest q).mem = s.mem := rfl
@[simp] theorem State.afterRequest_stk (s : State) (q : HostRequest) : (s.afterRequest q).stk = s.stk := rfl
@[simp] theorem State.afterRequest_prog (s : State) (q : HostRequest) : (s.afterRequest q).prog = s.prog := rfl
@[simp] theorem State.afterRequest_outcome (s : State) (q : HostRequest) :
    (s.afterRequest q).outcome = s.outcome := rfl
@[simp] theorem State.afterRequest_fdtable (s : State) (q : HostRequest) :
    (s.afterRequest q).fdtable = s.fdtable := rfl
@[simp] theorem State.afterRequest_cfg (s : State) (q : HostRequest) : (s.afterRequest q).cfg = s.cfg := rfl
@[simp] theorem State.afterRequest_policy (s : State) (q : HostRequest) : (s.afterRequest q).policy = s.policy := rfl
@[simp] theorem State.afterRequest_hostOut (s : State) (q : HostRequest) :
    (s.afterRequest q).hostOut = s.hostOut ++ [q] := rfl
@[simp] theorem State.afterRequest_hostIn (s : State) (q : HostRequest) :
    (s.afterRequest q).hostIn = s.hostIn.tail := rfl

theorem State.afterRequest_freeDraws (s : State) (q : HostRequest) :
    (s.afterRequest q).freeDraws = if s.hostIn = [] then s.freeDraws + 1 else s.freeDraws := by
  cases h : s.hostIn <;> simp [State.afterRequest, h]

/-! ### The latch -/

@[simp] theorem State.latch_regs (s : State) (o : Latch) : (s.latch o).regs = s.regs := rfl
@[simp] theorem State.latch_mem (s : State) (o : Latch) : (s.latch o).mem = s.mem := rfl
@[simp] theorem State.latch_stk (s : State) (o : Latch) : (s.latch o).stk = s.stk := rfl
@[simp] theorem State.latch_prog (s : State) (o : Latch) : (s.latch o).prog = s.prog := rfl
@[simp] theorem State.latch_outcome (s : State) (o : Latch) :
    (s.latch o).outcome = o := rfl
@[simp] theorem State.latch_fdtable (s : State) (o : Latch) : (s.latch o).fdtable = s.fdtable := rfl
@[simp] theorem State.latch_cfg (s : State) (o : Latch) : (s.latch o).cfg = s.cfg := rfl
@[simp] theorem State.latch_policy (s : State) (o : Latch) : (s.latch o).policy = s.policy := rfl
@[simp] theorem State.latch_hostIn (s : State) (o : Latch) : (s.latch o).hostIn = s.hostIn := rfl
@[simp] theorem State.latch_hostOut (s : State) (o : Latch) : (s.latch o).hostOut = s.hostOut := rfl
@[simp] theorem State.latch_freeDraws (s : State) (o : Latch) : (s.latch o).freeDraws = s.freeDraws := rfl
@[simp] theorem State.latch_reg (s : State) (o : Latch) (r : Reg) : (s.latch o).reg r = s.reg r := rfl
@[simp] theorem State.latch_memByte (s : State) (o : Latch) (b : Byte) : (s.latch o).memByte b = s.memByte b := rfl
@[simp] theorem State.latch_stkByte (s : State) (o : Latch) (b : Byte) : (s.latch o).stkByte b = s.stkByte b := rfl

/-! ### A range of data memory -/

@[simp] theorem State.putBytes_regs (s : State) (a : Nat) (l : List Byte) : (s.putBytes a l).regs = s.regs := rfl
@[simp] theorem State.putBytes_mem (s : State) (a : Nat) (l : List Byte) :
    (s.putBytes a l).mem = Memory.writeMany s.mem a l := rfl
@[simp] theorem State.putBytes_stk (s : State) (a : Nat) (l : List Byte) : (s.putBytes a l).stk = s.stk := rfl
@[simp] theorem State.putBytes_prog (s : State) (a : Nat) (l : List Byte) : (s.putBytes a l).prog = s.prog := rfl
@[simp] theorem State.putBytes_outcome (s : State) (a : Nat) (l : List Byte) :
    (s.putBytes a l).outcome = s.outcome := rfl
@[simp] theorem State.putBytes_fdtable (s : State) (a : Nat) (l : List Byte) :
    (s.putBytes a l).fdtable = s.fdtable := rfl
@[simp] theorem State.putBytes_cfg (s : State) (a : Nat) (l : List Byte) : (s.putBytes a l).cfg = s.cfg := rfl
@[simp] theorem State.putBytes_policy (s : State) (a : Nat) (l : List Byte) : (s.putBytes a l).policy = s.policy := rfl
@[simp] theorem State.putBytes_hostIn (s : State) (a : Nat) (l : List Byte) : (s.putBytes a l).hostIn = s.hostIn := rfl
@[simp] theorem State.putBytes_hostOut (s : State) (a : Nat) (l : List Byte) :
    (s.putBytes a l).hostOut = s.hostOut := rfl
@[simp] theorem State.putBytes_freeDraws (s : State) (a : Nat) (l : List Byte) :
    (s.putBytes a l).freeDraws = s.freeDraws := rfl
@[simp] theorem State.putBytes_reg (s : State) (a : Nat) (l : List Byte) (r : Reg) :
    (s.putBytes a l).reg r = s.reg r := rfl
@[simp] theorem State.putBytes_stkByte (s : State) (a : Nat) (l : List Byte) (b : Byte) :
    (s.putBytes a l).stkByte b = s.stkByte b := rfl

/-! ### The instruction store -/

@[simp] theorem State.putCode_regs (s : State) (a : Nat) (l : List Instr) : (s.putCode a l).regs = s.regs := rfl
@[simp] theorem State.putCode_mem (s : State) (a : Nat) (l : List Instr) : (s.putCode a l).mem = s.mem := rfl
@[simp] theorem State.putCode_stk (s : State) (a : Nat) (l : List Instr) : (s.putCode a l).stk = s.stk := rfl
@[simp] theorem State.putCode_prog (s : State) (a : Nat) (l : List Instr) :
    (s.putCode a l).prog = storeAt s.prog a l := rfl
@[simp] theorem State.putCode_outcome (s : State) (a : Nat) (l : List Instr) :
    (s.putCode a l).outcome = s.outcome := rfl
@[simp] theorem State.putCode_fdtable (s : State) (a : Nat) (l : List Instr) :
    (s.putCode a l).fdtable = s.fdtable := rfl
@[simp] theorem State.putCode_cfg (s : State) (a : Nat) (l : List Instr) : (s.putCode a l).cfg = s.cfg := rfl
@[simp] theorem State.putCode_policy (s : State) (a : Nat) (l : List Instr) : (s.putCode a l).policy = s.policy := rfl
@[simp] theorem State.putCode_hostIn (s : State) (a : Nat) (l : List Instr) : (s.putCode a l).hostIn = s.hostIn := rfl
@[simp] theorem State.putCode_hostOut (s : State) (a : Nat) (l : List Instr) :
    (s.putCode a l).hostOut = s.hostOut := rfl
@[simp] theorem State.putCode_freeDraws (s : State) (a : Nat) (l : List Instr) :
    (s.putCode a l).freeDraws = s.freeDraws := rfl
@[simp] theorem State.putCode_reg (s : State) (a : Nat) (l : List Instr) (r : Reg) :
    (s.putCode a l).reg r = s.reg r := rfl
@[simp] theorem State.putCode_memByte (s : State) (a : Nat) (l : List Instr) (b : Byte) :
    (s.putCode a l).memByte b = s.memByte b := rfl
@[simp] theorem State.putCode_stkByte (s : State) (a : Nat) (l : List Instr) (b : Byte) :
    (s.putCode a l).stkByte b = s.stkByte b := rfl

/-! ### The descriptor table -/

@[simp] theorem State.ownFd_regs (s : State) (fd : Nat) : (s.ownFd fd).regs = s.regs := rfl
@[simp] theorem State.ownFd_mem (s : State) (fd : Nat) : (s.ownFd fd).mem = s.mem := rfl
@[simp] theorem State.ownFd_stk (s : State) (fd : Nat) : (s.ownFd fd).stk = s.stk := rfl
@[simp] theorem State.ownFd_prog (s : State) (fd : Nat) : (s.ownFd fd).prog = s.prog := rfl
@[simp] theorem State.ownFd_outcome (s : State) (fd : Nat) : (s.ownFd fd).outcome = s.outcome := rfl
@[simp] theorem State.ownFd_fdtable (s : State) (fd : Nat) :
    (s.ownFd fd).fdtable = addFd s.fdtable fd := rfl
@[simp] theorem State.ownFd_cfg (s : State) (fd : Nat) : (s.ownFd fd).cfg = s.cfg := rfl
@[simp] theorem State.ownFd_policy (s : State) (fd : Nat) : (s.ownFd fd).policy = s.policy := rfl
@[simp] theorem State.ownFd_hostIn (s : State) (fd : Nat) : (s.ownFd fd).hostIn = s.hostIn := rfl
@[simp] theorem State.ownFd_hostOut (s : State) (fd : Nat) : (s.ownFd fd).hostOut = s.hostOut := rfl
@[simp] theorem State.ownFd_freeDraws (s : State) (fd : Nat) : (s.ownFd fd).freeDraws = s.freeDraws := rfl
@[simp] theorem State.ownFd_reg (s : State) (fd : Nat) (r : Reg) : (s.ownFd fd).reg r = s.reg r := rfl
@[simp] theorem State.ownFd_memByte (s : State) (fd : Nat) (b : Byte) : (s.ownFd fd).memByte b = s.memByte b := rfl
@[simp] theorem State.ownFd_stkByte (s : State) (fd : Nat) (b : Byte) : (s.ownFd fd).stkByte b = s.stkByte b := rfl

/-! ### The advance -/

@[simp] theorem State.advance_reg_i (s : State) : s.advance.reg .i = s.reg .i + 1 := by simp [State.advance]

theorem State.advance_reg_of_ne (s : State) {r : Reg} (h : r ≠ .i) : s.advance.reg r = s.reg r :=
  State.reg_setReg_of_ne s h _

@[simp] theorem State.advance_memByte (s : State) (b : Byte) : s.advance.memByte b = s.memByte b := rfl
@[simp] theorem State.advance_stkByte (s : State) (b : Byte) : s.advance.stkByte b = s.stkByte b := rfl
@[simp] theorem State.advance_mem (s : State) : s.advance.mem = s.mem := rfl
@[simp] theorem State.advance_stk (s : State) : s.advance.stk = s.stk := rfl
@[simp] theorem State.advance_prog (s : State) : s.advance.prog = s.prog := rfl
@[simp] theorem State.advance_outcome (s : State) : s.advance.outcome = s.outcome := rfl
@[simp] theorem State.advance_fdtable (s : State) : s.advance.fdtable = s.fdtable := rfl
@[simp] theorem State.advance_cfg (s : State) : s.advance.cfg = s.cfg := rfl
@[simp] theorem State.advance_policy (s : State) : s.advance.policy = s.policy := rfl
@[simp] theorem State.advance_hostIn (s : State) : s.advance.hostIn = s.hostIn := rfl
@[simp] theorem State.advance_hostOut (s : State) : s.advance.hostOut = s.hostOut := rfl
@[simp] theorem State.advance_freeDraws (s : State) : s.advance.freeDraws = s.freeDraws := rfl

/-! ### A word placed at the fetch -/

@[simp] theorem State.placeAtFetch_regs (s : State) (i : Instr) : (s.placeAtFetch i).regs = s.regs := rfl
@[simp] theorem State.placeAtFetch_reg (s : State) (i : Instr) (r : Reg) : (s.placeAtFetch i).reg r = s.reg r := rfl
@[simp] theorem State.placeAtFetch_mem (s : State) (i : Instr) : (s.placeAtFetch i).mem = s.mem := rfl
@[simp] theorem State.placeAtFetch_stk (s : State) (i : Instr) : (s.placeAtFetch i).stk = s.stk := rfl
@[simp] theorem State.placeAtFetch_outcome (s : State) (i : Instr) : (s.placeAtFetch i).outcome = .running := rfl
@[simp] theorem State.placeAtFetch_fdtable (s : State) (i : Instr) : (s.placeAtFetch i).fdtable = s.fdtable := rfl
@[simp] theorem State.placeAtFetch_cfg (s : State) (i : Instr) : (s.placeAtFetch i).cfg = s.cfg := rfl
@[simp] theorem State.placeAtFetch_policy (s : State) (i : Instr) : (s.placeAtFetch i).policy = s.policy := rfl
@[simp] theorem State.placeAtFetch_hostIn (s : State) (i : Instr) : (s.placeAtFetch i).hostIn = s.hostIn := rfl
@[simp] theorem State.placeAtFetch_hostOut (s : State) (i : Instr) : (s.placeAtFetch i).hostOut = s.hostOut := rfl
@[simp] theorem State.placeAtFetch_freeDraws (s : State) (i : Instr) :
    (s.placeAtFetch i).freeDraws = s.freeDraws := rfl

end Sys2Proof.Machine
end

