-- ==== Sys2Proof/Laws/Memory.lean ====
section
/-! SUPPORT. The laws of the two byte arrays: what a read gives after a write, and that every operation keeps the
canonical form. -/
namespace Sys2Proof.Machine

/-! ### Reads after writes -/

theorem Memory.read_nil (b : Nat) : Memory.read [] b = unlistedByte := rfl

theorem Memory.read_cons (c : Host.Cell) (m : Memory) (b : Nat) :
    Memory.read (c :: m) b = if c.1 = b then c.2 else Memory.read m b := by
  by_cases h : c.1 = b <;> simp [Memory.read, h]

theorem Memory.read_filter_ne (m : Memory) {a b : Nat} (h : b ≠ a) :
    Memory.read (m.filter fun c => c.1 != a) b = Memory.read m b := by
  induction m with
  | nil => rfl
  | cons c m ih =>
    by_cases hc : c.1 = a
    · have hb : c.1 ≠ b := fun e => h (e ▸ hc)
      simp [hc, Memory.read_cons, ih, h.symm]
    · simp [hc, Memory.read_cons, ih]

theorem Memory.read_filter_self (m : Memory) (a : Nat) :
    Memory.read (m.filter fun c => c.1 != a) a = unlistedByte := by
  induction m with
  | nil => rfl
  | cons c m ih =>
    by_cases hc : c.1 = a
    · simp [hc, ih]
    · simp [hc, Memory.read_cons, ih]

theorem Memory.read_place (m : Memory) (c : Host.Cell) (b : Nat) (hm : ∀ d ∈ m, d.1 ≠ c.1) :
    Memory.read (Memory.place m c) b = if b = c.1 then c.2 else Memory.read m b := by
  induction m with
  | nil => simp [Memory.place, Memory.read_cons, eq_comm]
  | cons d m ih =>
    have hd : d.1 ≠ c.1 := hm d (by simp)
    have ih := ih fun e he => hm e (by simp [he])
    by_cases hlt : c.1 < d.1
    · simp [Memory.place, hlt, Memory.read_cons, eq_comm]
    · by_cases hb : d.1 = b
      · subst hb; simp [Memory.place, hlt, Memory.read_cons, hd]
      · simp [Memory.place, hlt, Memory.read_cons, hb, ih]

/-- Everything a write does to reads, with no condition on the list. -/
theorem Memory.read_write (m : Memory) (a b : Nat) (v : Byte) :
    Memory.read (Memory.write m a v) b = if b = a then v else Memory.read m b := by
  unfold Memory.write
  by_cases hv : v = unlistedByte
  · by_cases hb : b = a
    · subst hb; simp [hv, Memory.read_filter_self]
    · simp [hv, hb, Memory.read_filter_ne m hb]
  · have hp := Memory.read_place (m.filter fun c => c.1 != a) (a, v) b (by simp)
    by_cases hb : b = a
    · subst hb; simpa [hv] using hp
    · simpa [hv, hb, Memory.read_filter_ne m hb] using hp

/-- Everything a range write does to reads: byte k stands at `start + k`, every other cell reads as before. -/
theorem Memory.read_writeMany (vs : List Byte) (m : Memory) (start b : Nat) :
    Memory.read (Memory.writeMany m start vs) b =
      if start ≤ b ∧ b < start + vs.length then vs.getD (b - start) 0 else Memory.read m b := by
  induction vs generalizing m start with
  | nil => simp only [Memory.writeMany, List.length_nil]; rw [if_neg (by omega)]
  | cons v vs ih =>
    rw [Memory.writeMany, ih, Memory.read_write]
    by_cases h1 : b = start
    · subst h1; simp
    · by_cases h2 : start + 1 ≤ b ∧ b < start + 1 + vs.length
      · obtain ⟨k, hk⟩ : ∃ k, b - start = k + 1 := ⟨b - start - 1, by omega⟩
        rw [if_pos h2, if_pos (by simp only [List.length_cons]; omega), hk, List.getD_cons_succ]
        congr 1; omega
      · rw [if_neg h2, if_neg h1, if_neg (by simp only [List.length_cons]; omega)]

theorem State.memByte_setMemByte (s : State) (a b v : Byte) :
    (s.setMemByte a v).memByte b = if b = a then v else s.memByte b := by
  simp [State.memByte, State.setMemByte, Memory.read_write, BitVec.toNat_inj]

theorem State.stkByte_setStkByte (s : State) (a b v : Byte) :
    (s.setStkByte a v).stkByte b = if b = a then v else s.stkByte b := by
  simp [State.stkByte, State.setStkByte, Memory.read_write, BitVec.toNat_inj]

/-! ### The canonical form -/

theorem Memory.wf_iff (m : Memory) :
    Memory.wf m = true ↔ m.Pairwise (fun x y => x.1 < y.1) ∧ ∀ c ∈ m, c.1 < 256 ∧ c.2 ≠ 0 := by
  simp [Memory.wf, bne_iff_ne]

theorem Memory.wf_nil : Memory.wf [] = true := by decide

theorem Memory.mem_place (m : Memory) (c e : Host.Cell) : e ∈ Memory.place m c ↔ e = c ∨ e ∈ m := by
  induction m with
  | nil => simp [Memory.place]
  | cons d m ih =>
    by_cases h : c.1 < d.1
    · simp [Memory.place, h]
    · simp only [Memory.place, h, if_false, List.mem_cons, ih]; tauto

theorem Memory.pairwise_place (m : Memory) (c : Host.Cell) (h : m.Pairwise fun x y => x.1 < y.1)
    (hc : ∀ d ∈ m, d.1 ≠ c.1) : (Memory.place m c).Pairwise fun x y => x.1 < y.1 := by
  induction m with
  | nil => simp [Memory.place]
  | cons d m ih =>
    rw [List.pairwise_cons] at h
    by_cases hlt : c.1 < d.1
    · simp only [Memory.place, hlt, if_true, List.pairwise_cons, List.mem_cons]
      refine ⟨?_, h⟩
      rintro e (rfl | he)
      · exact hlt
      · exact hlt.trans (h.1 e he)
    · simp only [Memory.place, hlt, if_false, List.pairwise_cons, Memory.mem_place]
      refine ⟨?_, ih h.2 fun e he => hc e (by simp [he])⟩
      rintro e (rfl | he)
      · have := hc d (by simp); omega
      · exact h.1 e he

/-- A write inside the array keeps the canonical form. -/
theorem Memory.wf_write (m : Memory) {a : Nat} (v : Byte) (ha : a < 256) (h : Memory.wf m = true) :
    Memory.wf (Memory.write m a v) = true := by
  rw [Memory.wf_iff] at h ⊢
  obtain ⟨hp, hc⟩ := h
  have hf : (m.filter fun c => c.1 != a).Pairwise fun x y => x.1 < y.1 := hp.filter _
  have hne : ∀ d ∈ m.filter fun c => c.1 != a, d.1 ≠ a := by simp
  unfold Memory.write
  by_cases hv : v = unlistedByte
  · simp only [hv, if_true]
    exact ⟨hf, fun c hm => hc c (List.mem_filter.mp hm).1⟩
  · simp only [hv, if_false]
    refine ⟨Memory.pairwise_place _ _ hf hne, fun c hm => ?_⟩
    rcases (Memory.mem_place _ _ _).mp hm with rfl | hm
    · exact ⟨ha, hv⟩
    · exact hc c (List.mem_filter.mp hm).1

/-- A range write inside the array keeps the canonical form. -/
theorem Memory.wf_writeMany (vs : List Byte) (m : Memory) (start : Nat) (hs : start + vs.length ≤ 256)
    (h : Memory.wf m = true) : Memory.wf (Memory.writeMany m start vs) = true := by
  induction vs generalizing m start with
  | nil => exact h
  | cons v vs ih =>
    simp only [List.length_cons] at hs
    exact ih _ _ (by omega) (Memory.wf_write m v (by omega) h)

theorem State.wf_setMemByte (s : State) (a v : Byte) (h : Memory.wf s.mem = true) :
    Memory.wf (s.setMemByte a v).mem = true := Memory.wf_write _ _ a.isLt h

theorem State.wf_setStkByte (s : State) (a v : Byte) (h : Memory.wf s.stk = true) :
    Memory.wf (s.setStkByte a v).stk = true := Memory.wf_write _ _ a.isLt h

end Sys2Proof.Machine
end

