-- ==== Sys2Proof/Laws/Ops.lean ====
section
/-! SUPPORT. One lemma per shared operation that says everything it can do, for proofs to cite instead of unfolding it. -/
namespace Sys2Proof.Machine

/-! ### Taking a fault or a halt -/

theorem raise_next_iff {k : FaultKind} {s t : State} : raise k s = .next t ↔ t = s.latch (.faulted k) := by
  simp [raise, eq_comm]

theorem halt_next_iff {c : Byte} {s t : State} : halt c s = .next t ↔ t = s.latch (.halted c) := by
  simp [halt, eq_comm]

theorem faultedOnly_latch (k : FaultKind) (s : State) : FaultedOnly k s (s.latch (.faulted k)) := by
  simp [FaultedOnly, SameRegs, SameMem, SameStk, SameInputs, SameHostPort]

/-! ### Operands -/

@[simp] theorem requireReg_none (op : Opcode) (pos : OperandPos) (s : State) (k : Reg → Result) :
    requireReg op pos none s k = raise (.invalidOperand op pos) s := rfl

@[simp] theorem requireReg_some (op : Opcode) (pos : OperandPos) (r : Reg) (s : State) (k : Reg → Result) :
    requireReg op pos (some r) s k = k r := rfl

theorem requireReg_next {op : Opcode} {pos : OperandPos} {x : Option Reg} {s t : State} {k : Reg → Result} :
    requireReg op pos x s k = .next t ↔
      (x = none ∧ t = s.latch (.faulted (.invalidOperand op pos))) ∨ ∃ r, x = some r ∧ k r = .next t := by
  cases x <;> simp [raise_next_iff]

theorem requireTwo_next {op : Opcode} {x y : Option Reg} {s t : State} {k : Reg → Reg → Result} :
    requireTwo op x y s k = .next t ↔
      (x = none ∧ t = s.latch (.faulted (.invalidOperand op .arg1))) ∨
      (x ≠ none ∧ y = none ∧ t = s.latch (.faulted (.invalidOperand op .arg2))) ∨
      ∃ r q, x = some r ∧ y = some q ∧ k r q = .next t := by
  cases x <;> cases y <;> simp [requireTwo, raise_next_iff]

/-! ### The stack -/

theorem push_ok_iff {s t : State} {v : Byte} :
    s.push v = .ok t ↔ ¬(s.policy = .checked ∧ s.reg .s = 0xFF) ∧
      t = (s.setStkByte (s.reg .s) v).setReg .s (s.reg .s + 1) := by
  unfold State.push; split <;> simp_all [eq_comm]

theorem push_error_iff {s : State} {v : Byte} {k : FaultKind} :
    s.push v = .error k ↔ s.policy = .checked ∧ s.reg .s = 0xFF ∧ k = .stackOverflow 0xFF := by
  unfold State.push; split <;> simp_all [eq_comm]

theorem pop_ok_iff {s t : State} {dst : Reg} :
    s.pop dst = .ok t ↔ ¬(s.policy = .checked ∧ s.reg .s = 0x00) ∧
      t = (s.setReg .s (s.reg .s - 1)).setReg dst (s.stkByte (s.reg .s - 1)) := by
  unfold State.pop; split <;> simp_all [eq_comm]

theorem pop_error_iff {s : State} {dst : Reg} {k : FaultKind} :
    s.pop dst = .error k ↔ s.policy = .checked ∧ s.reg .s = 0x00 ∧ k = .stackUnderflow 0x00 := by
  unfold State.pop; split <;> simp_all [eq_comm]

/-- A byte that an increment has left is not 0x00 unless it was 0xFF: after a push that the checked policy allows, the
pop cannot underflow (42_stk.md R162). -/
theorem succ_ne_zero_of_ne_ff (v : Byte) (h : v ≠ 0xFF) : v + 1 ≠ 0 := by
  revert v; decide

/-! ### The instruction store -/

theorem storeAt_length (prog is : List Instr) {start : Nat} (h : start ≤ prog.length) :
    (storeAt prog start is).length = max prog.length (start + is.length) := by
  simp only [storeAt, List.length_append, List.length_take, List.length_drop]; omega

/-- Everything a write into the store does to its entries. -/
theorem storeAt_getElem? (prog is : List Instr) {start : Nat} (h : start ≤ prog.length) (k : Nat) :
    (storeAt prog start is)[k]? =
      if start ≤ k ∧ k < start + is.length then is[k - start]? else prog[k]? := by
  have hl : (prog.take start).length = start := by simp [h]
  unfold storeAt
  rw [List.append_assoc]
  by_cases h1 : k < start
  · rw [List.getElem?_append_left (by omega), if_neg (by omega), List.getElem?_take_of_lt h1]
  · rw [List.getElem?_append_right (by omega), hl]
    by_cases h2 : k - start < is.length
    · rw [List.getElem?_append_left h2, if_pos (by omega)]
    · rw [List.getElem?_append_right (by omega), if_neg (by omega), List.getElem?_drop]
      congr 1; omega

theorem fetch_placeAtFetch (s : State) (ins : Instr) : (s.placeAtFetch ins).fetch = some ins := by
  have h : (s.reg .i).toNat ≤ (s.prog ++ List.replicate ((s.reg .i).toNat - s.prog.length) nop).length := by
    simp only [List.length_append, List.length_replicate]; omega
  change (storeAt _ (s.reg .i).toNat [ins])[(s.reg .i).toNat]? = some ins
  rw [storeAt_getElem? _ _ h]
  simp

theorem placeAtFetch_getElem? (s : State) (ins : Instr) {k : Nat} (hk : k < s.prog.length)
    (hne : k ≠ (s.reg .i).toNat) : (s.placeAtFetch ins).prog[k]? = s.prog[k]? := by
  have h : (s.reg .i).toNat ≤ (s.prog ++ List.replicate ((s.reg .i).toNat - s.prog.length) nop).length := by
    simp only [List.length_append, List.length_replicate]; omega
  change (storeAt _ (s.reg .i).toNat [ins])[k]? = _
  rw [storeAt_getElem? _ _ h, if_neg (by simp only [List.length_singleton]; omega),
    List.getElem?_append_left hk]

/-! ### The descriptor table -/

theorem mem_addFd (t : List Nat) (fd x : Nat) : x ∈ addFd t fd ↔ x = fd ∨ x ∈ t := by
  induction t with
  | nil => simp [addFd]
  | cons y t ih =>
    unfold addFd
    split
    · simp
    · split
      · simp_all
      · simp only [List.mem_cons, ih]; tauto

theorem addFd_ascending (t : List Nat) (fd : Nat) (h : t.Pairwise (· < ·)) : (addFd t fd).Pairwise (· < ·) := by
  induction t with
  | nil => simp [addFd]
  | cons y t ih =>
    rw [List.pairwise_cons] at h
    unfold addFd
    split
    · rename_i hlt
      simp only [List.pairwise_cons, List.mem_cons]
      refine ⟨?_, h⟩
      rintro z (rfl | hz)
      · exact hlt
      · exact hlt.trans (h.1 z hz)
    · split
      · exact List.pairwise_cons.mpr h
      · simp only [List.pairwise_cons, mem_addFd]
        refine ⟨?_, ih h.2⟩
        rintro z (rfl | hz)
        · omega
        · exact h.1 z hz

/-! ### Ranges and the path scan -/

theorem readMany_length (m : Memory) (start n : Nat) : (Memory.readMany m start n).length = n := by
  simp [Memory.readMany]

theorem readMany_getElem? (m : Memory) (start n : Nat) {k : Nat} (h : k < n) :
    (Memory.readMany m start n)[k]? = some (Memory.read m (start + k)) := by
  simp [Memory.readMany, h]

theorem memReadRange_ok_iff {s : State} {start n : Nat} {l : List Byte} :
    s.memReadRange start n = .ok l ↔ start + n ≤ 256 ∧ l = Memory.readMany s.mem start n := by
  unfold State.memReadRange outOfRange
  by_cases h : 256 < start + n
  · simp [h]
  · simp only [h, decide_false]
    exact ⟨fun e => ⟨by omega, by simpa [eq_comm] using e⟩, fun e => by simp [e.2]⟩

theorem memReadRange_error_iff {s : State} {start n : Nat} {k : FaultKind} :
    s.memReadRange start n = .error k ↔ 256 < start + n ∧ k = .outOfBounds start n := by
  unfold State.memReadRange outOfRange
  by_cases h : 256 < start + n <;> simp [h, eq_comm]

/-- The scan finds the bytes before the first 0x00 in its window, and fails exactly where the window holds none. -/
theorem scan_some (m : Memory) (n fuel k : Nat) (hn : n < fuel) (hz : Memory.read m (k + n) = 0)
    (hnz : ∀ j, j < n → Memory.read m (k + j) ≠ 0) : Memory.scan m fuel k = some (Memory.readMany m k n) := by
  induction n generalizing fuel k with
  | zero =>
    obtain ⟨fuel, rfl⟩ : ∃ f, fuel = f + 1 := ⟨fuel - 1, by omega⟩
    have hz : Memory.read m k = 0 := by simpa using hz
    simp [Memory.scan, hz, Memory.readMany]
  | succ n ih =>
    obtain ⟨fuel, rfl⟩ : ∃ f, fuel = f + 1 := ⟨fuel - 1, by omega⟩
    have h0 : Memory.read m k ≠ 0 := by simpa using hnz 0 (by omega)
    have := ih fuel (k + 1) (by omega) (by rw [← hz]; congr 1; omega)
      (fun j hj => by rw [Nat.add_assoc, Nat.add_comm 1 j]; exact hnz (j + 1) (by omega))
    simp only [Memory.scan, h0, if_false, this]
    simp [Memory.readMany, List.range_succ_eq_map, Function.comp_def, Nat.add_assoc, Nat.add_comm 1]

theorem scan_none (m : Memory) (fuel k : Nat) (h : ∀ j, j < fuel → Memory.read m (k + j) ≠ 0) :
    Memory.scan m fuel k = none := by
  induction fuel generalizing k with
  | zero => rfl
  | succ fuel ih =>
    have h0 : Memory.read m k ≠ 0 := by simpa using h 0 (by omega)
    have := ih (k + 1) (fun j hj => by rw [Nat.add_assoc, Nat.add_comm 1 j]; exact h (j + 1) (by omega))
    simp only [Memory.scan, if_neg h0, this]

theorem readCString_error {s : State} {a : Byte} {k : FaultKind} (h : s.readCString a = .error k) :
    k = .outOfBounds a.toNat (256 - a.toNat) := by
  unfold State.readCString at h
  split at h <;> simp_all [eq_comm]

/-! ### The host port -/

theorem asked_afterRequest (req : HostRequest) (s : State) : Asked req s (s.afterRequest req) :=
  ⟨rfl, rfl, State.afterRequest_freeDraws s req⟩

/-- A free answer lies in the ranges of R190. -/
theorem freeAnswer_allowed (n : Nat) (req : HostRequest) : allowed req (freeAnswer n req) = true := by
  cases req <;> simp only [freeAnswer]
  · split <;> rfl
  · split <;> simp [allowed]
  · split <;> simp [allowed]
  · rfl

theorem answer_allowed_of_no_script (s : State) (req : HostRequest) (h : s.hostIn = []) :
    allowed req (s.answer req) = true := by
  simp [State.answer, h, freeAnswer_allowed]

/-- What a syscall makes of an answer that is no `Ok` in range. -/
theorem notOk_cases (req : HostRequest) (resp : HostResponse) (s : State) :
    (∃ e, resp = .err e ∧ notOk req resp s = .raises (.hostIoError e) s) ∨
    (resp = .silent ∧ notOk req resp s = .stops (.hostNeverAnswers req)) ∨
    ((∀ e, resp ≠ .err e) ∧ resp ≠ .silent ∧ notOk req resp s = .refuses (.hostOutsideContract req resp)) := by
  cases resp <;> simp [notOk]

/-- Everything OPEN can do. -/
theorem doOpen_cases (p : Byte) (s : State) :
    (∃ k, s.readCString p = .error k ∧ doOpen p s = .raises k s) ∨
    ∃ path, s.readCString p = .ok path ∧
      ((∃ fd, s.answer (.openFile path) = .opened fd ∧ fd ≤ 255 ∧
          doOpen p s = .returns (BitVec.ofNat 8 fd) ((s.afterRequest (.openFile path)).ownFd fd)) ∨
       (∃ fd, s.answer (.openFile path) = .opened fd ∧ 255 < fd ∧
          doOpen p s = .raises (.fileDescriptorOverflow fd) ((s.afterRequest (.openFile path)).ownFd fd)) ∨
       (∃ e, s.answer (.openFile path) = .err e ∧
          doOpen p s = .raises (.hostIoError e) (s.afterRequest (.openFile path))) ∨
       (s.answer (.openFile path) = .silent ∧ doOpen p s = .stops (.hostNeverAnswers (.openFile path))) ∨
       (s.answer (.openFile path) ≠ .silent ∧ allowed (.openFile path) (s.answer (.openFile path)) = false ∧
          doOpen p s = .refuses (.hostOutsideContract (.openFile path) (s.answer (.openFile path))))) := by
  unfold doOpen
  cases hp : s.readCString p with
  | error k => exact .inl ⟨k, rfl, rfl⟩
  | ok path =>
    refine .inr ⟨path, rfl, ?_⟩
    cases ha : s.answer (.openFile path) with
    | opened fd =>
      by_cases hf : 255 < fd
      · simp [ha, hf, allowed]
      · simp [ha, hf]; omega
    | _ => simp [ha, notOk, allowed]

/-- Everything READ_CODE can do. -/
theorem doReadCode_cases (fd start count : Byte) (s : State) :
    ((256 < start.toNat + count.toNat ∨ s.progLen < start.toNat) ∧
      doReadCode fd start count s = .raises (.outOfBounds start.toNat count.toNat) s) ∨
    (start.toNat + count.toNat ≤ 256 ∧ start.toNat ≤ s.progLen ∧ ∃ req, req = .readFile fd (3 * count.toNat) ∧
      ((∃ bytes is, s.answer req = .data bytes ∧ bytes.length ≤ 3 * count.toNat ∧
          decodeStream s.cfg bytes = .ok is ∧ doReadCode fd start count s =
            .returns (BitVec.ofNat 8 is.length) ((s.afterRequest req).putCode start.toNat is)) ∨
       (∃ bytes e, s.answer req = .data bytes ∧ bytes.length ≤ 3 * count.toNat ∧
          decodeStream s.cfg bytes = .error e ∧
          doReadCode fd start count s = .raises (.decodeError e) (s.afterRequest req)) ∨
       (∃ e, s.answer req = .err e ∧ doReadCode fd start count s = .raises (.hostIoError e) (s.afterRequest req)) ∨
       (s.answer req = .silent ∧ doReadCode fd start count s = .stops (.hostNeverAnswers req)) ∨
       (s.answer req ≠ .silent ∧ allowed req (s.answer req) = false ∧
          doReadCode fd start count s = .refuses (.hostOutsideContract req (s.answer req))))) := by
  unfold doReadCode outOfRange
  by_cases h1 : 256 < start.toNat + count.toNat
  · exact .inl ⟨.inl h1, by simp [h1]⟩
  by_cases h2 : s.progLen < start.toNat
  · exact .inl ⟨.inr h2, by simp [h1, h2]⟩
  refine .inr ⟨by omega, by omega, _, rfl, ?_⟩
  simp only [h1, h2, decide_false, if_false, Bool.false_eq_true]
  cases ha : s.answer (.readFile fd (3 * count.toNat)) with
  | data bytes =>
    by_cases hb : 3 * count.toNat < bytes.length
    · simp [hb, allowed]
    · cases hd : decodeStream s.cfg bytes <;> simp [hb, hd] <;> omega
  | _ => simp [notOk, allowed]

/-- Everything READ_MEMORY can do. -/
theorem doReadMemory_cases (fd start count : Byte) (s : State) :
    (256 < start.toNat + count.toNat ∧
      doReadMemory fd start count s = .raises (.outOfBounds start.toNat count.toNat) s) ∨
    (start.toNat + count.toNat ≤ 256 ∧ ∃ req, req = .readFile fd count.toNat ∧
      ((∃ bytes, s.answer req = .data bytes ∧ bytes.length ≤ count.toNat ∧ doReadMemory fd start count s =
          .returns (BitVec.ofNat 8 bytes.length) ((s.afterRequest req).putBytes start.toNat bytes)) ∨
       (∃ e, s.answer req = .err e ∧ doReadMemory fd start count s = .raises (.hostIoError e) (s.afterRequest req)) ∨
       (s.answer req = .silent ∧ doReadMemory fd start count s = .stops (.hostNeverAnswers req)) ∨
       (s.answer req ≠ .silent ∧ allowed req (s.answer req) = false ∧
          doReadMemory fd start count s = .refuses (.hostOutsideContract req (s.answer req))))) := by
  unfold doReadMemory outOfRange
  by_cases h1 : 256 < start.toNat + count.toNat
  · exact .inl ⟨h1, by simp [h1]⟩
  refine .inr ⟨by omega, _, rfl, ?_⟩
  simp only [h1, decide_false, if_false, Bool.false_eq_true]
  cases ha : s.answer (.readFile fd count.toNat) with
  | data bytes =>
    by_cases hb : count.toNat < bytes.length
    · simp [hb, allowed]
    · have hr : ¬ 256 < start.toNat + bytes.length := by omega
      simp [hb, State.memWriteRange, outOfRange, hr]; omega
  | _ => simp [notOk, allowed]

/-- Everything WRITE can do. -/
theorem doWrite_cases (fd start size : Byte) (s : State) :
    (256 < start.toNat + size.toNat ∧
      doWrite fd start size s = .raises (.outOfBounds start.toNat size.toNat) s) ∨
    (start.toNat + size.toNat ≤ 256 ∧
      ∃ req, req = .writeFile fd (Memory.readMany s.mem start.toNat size.toNat) ∧
      ((∃ k, s.answer req = .wrote k ∧ k ≤ size.toNat ∧
          doWrite fd start size s = .returns (BitVec.ofNat 8 k) (s.afterRequest req)) ∨
       (∃ e, s.answer req = .err e ∧ doWrite fd start size s = .raises (.hostIoError e) (s.afterRequest req)) ∨
       (s.answer req = .silent ∧ doWrite fd start size s = .stops (.hostNeverAnswers req)) ∨
       (s.answer req ≠ .silent ∧ allowed req (s.answer req) = false ∧
          doWrite fd start size s = .refuses (.hostOutsideContract req (s.answer req))))) := by
  unfold doWrite
  cases hr : s.memReadRange start.toNat size.toNat with
  | error k =>
    obtain ⟨h, rfl⟩ := memReadRange_error_iff.mp hr
    exact .inl ⟨h, rfl⟩
  | ok data =>
    obtain ⟨h, rfl⟩ := memReadRange_ok_iff.mp hr
    refine .inr ⟨h, _, rfl, ?_⟩
    cases ha : s.answer (.writeFile fd (Memory.readMany s.mem start.toNat size.toNat)) with
    | wrote k =>
      by_cases hk : size.toNat < k
      · simp [ha, readMany_length, hk, allowed]
      · simp [ha, readMany_length, hk]; omega
    | _ => simp [ha, notOk, allowed]

/-- Everything SLEEP can do. -/
theorem doSleep_cases (secs : Byte) (s : State) :
    (s.answer (.sleep secs) = .slept ∧ doSleep secs s = .returns 0 (s.afterRequest (.sleep secs))) ∨
    (s.answer (.sleep secs) = .silent ∧ doSleep secs s = .stops (.hostNeverAnswers (.sleep secs))) ∨
    (s.answer (.sleep secs) ≠ .silent ∧ allowed (.sleep secs) (s.answer (.sleep secs)) = false ∧
      doSleep secs s = .refuses (.hostOutsideContract (.sleep secs) (s.answer (.sleep secs)))) := by
  unfold doSleep
  cases ha : s.answer (.sleep secs) <;> simp [ha, allowed]

/-- A register write changes that register only. -/
theorem setReg_frame (s : State) (r : Reg) (v : Byte) :
    SameRegs [r] s (s.setReg r v) ∧ SameMem s (s.setReg r v) ∧ SameStk s (s.setReg r v) ∧
      SameRest s (s.setReg r v) :=
  ⟨fun _ hq => State.reg_setReg_of_ne s (by simpa using hq) v, fun _ => rfl, fun _ => rfl,
    rfl, rfl, ⟨rfl, rfl⟩, rfl, rfl, rfl, rfl⟩

theorem State.memByte_ofNat (s : State) {a : Nat} (h : a < 256) :
    s.memByte (BitVec.ofNat 8 a) = Memory.read s.mem a := by
  simp [State.memByte, Nat.mod_eq_of_lt h]

end Sys2Proof.Machine
end

