-- ==== Sys2Proof/Laws/Exec.lean ====
section
/-! SUPPORT. What an instruction can do, said once: if `exec i s` answers `next t`, then `ExecNext s i t`; if a step of a
running block answers `next t`, the fetch faulted or an instruction did this on the advanced state. -/
namespace Sys2Proof.Machine

/-- Every way a syscall other than EXIT, with the result register `r`, takes `s` to a next state. -/
inductive SysNext (r : Reg) (s : State) : Syscall → State → Prop where
  | pathUnterminated (a : Byte) : SysNext r s .openFile (s.latch (.faulted (.outOfBounds a.toNat (256 - a.toNat))))
  | opened (path : List Byte) (fd : Nat) (hfd : fd ≤ 255) (hp : s.readCString (s.reg .a) = .ok path)
      (ha : s.answer (.openFile path) = .opened fd) :
      SysNext r s .openFile (((s.afterRequest (.openFile path)).ownFd fd).setReg r (BitVec.ofNat 8 fd))
  | openedTooHigh (path : List Byte) (fd : Nat) (hfd : 255 < fd) :
      SysNext r s .openFile
        (((s.afterRequest (.openFile path)).ownFd fd).latch (.faulted (.fileDescriptorOverflow fd)))
  | rangeOutOfBounds (n : Syscall) (hn : n = .readCode ∨ n = .readMemory ∨ n = .write) (start len : Nat) :
      SysNext r s n (s.latch (.faulted (.outOfBounds start len)))
  | hostError (n : Syscall) (hn : n ≠ .sleep ∧ n ≠ .exit) (req : HostRequest) (e : HostError) :
      SysNext r s n ((s.afterRequest req).latch (.faulted (.hostIoError e)))
  | codeBad (req : HostRequest) (e : DecodeError) (he : e ≠ .config) :
      SysNext r s .readCode ((s.afterRequest req).latch (.faulted (.decodeError e)))
  | codeRead (req : HostRequest) (start : Nat) (hs : start ≤ s.progLen) (is : List Instr) :
      SysNext r s .readCode (((s.afterRequest req).putCode start is).setReg r (BitVec.ofNat 8 is.length))
  | memoryRead (req : HostRequest) (start : Nat) (bytes : List Byte) (hb : start + bytes.length ≤ 256) :
      SysNext r s .readMemory (((s.afterRequest req).putBytes start bytes).setReg r (BitVec.ofNat 8 bytes.length))
  | wrote (req : HostRequest) (k : Nat) : SysNext r s .write ((s.afterRequest req).setReg r (BitVec.ofNat 8 k))
  | slept (req : HostRequest) : SysNext r s .sleep ((s.afterRequest req).setReg r 0)

theorem finishSys_next {r : Reg} {e : SysEnd} {t : State} :
    finishSys r e = .next t ↔
      (∃ v u, e = .returns v u ∧ t = u.setReg r v) ∨ ∃ k u, e = .raises k u ∧ t = u.latch (.faulted k) := by
  cases e <;> simp [finishSys, raise, eq_comm]

theorem sysNext_open {r : Reg} {s t : State} (h : finishSys r (doOpen (s.reg .a) s) = .next t) :
    SysNext r s .openFile t := by
  obtain ⟨k, hk, e⟩ | ⟨path, hp, ⟨fd, ha, hfd, e⟩ | ⟨fd, ha, hfd, e⟩ | ⟨k, ha, e⟩ | ⟨ha, e⟩ | ⟨ha, hb, e⟩⟩ :=
    doOpen_cases (s.reg .a) s <;>
    rw [e] at h <;> simp only [finishSys, raise, Host.Outcome.next.injEq, reduceCtorEq] at h <;> subst h
  · rw [readCString_error hk]; exact .pathUnterminated _
  · exact .opened path fd hfd hp ha
  · exact .openedTooHigh path fd hfd
  · exact .hostError _ (by decide) _ _

theorem sysNext_readCode {r : Reg} {s t : State}
    (h : finishSys r (doReadCode (s.reg .a) (s.reg .b) (s.reg .c) s) = .next t) : SysNext r s .readCode t := by
  obtain ⟨-, e⟩ | ⟨hr, hs, req, -, ⟨bytes, is, ha, hb, hd, e⟩ | ⟨bytes, k, ha, hb, hd, e⟩ | ⟨k, ha, e⟩ | ⟨ha, e⟩ |
    ⟨ha, hb, e⟩⟩ := doReadCode_cases (s.reg .a) (s.reg .b) (s.reg .c) s <;>
    rw [e] at h <;> simp only [finishSys, raise, Host.Outcome.next.injEq, reduceCtorEq] at h <;> subst h
  · exact .rangeOutOfBounds _ (by decide) _ _
  · exact .codeRead req _ hs is
  · exact .codeBad req k fun hk => decodeStream_ne_config _ _ (hk ▸ hd)
  · exact .hostError _ (by decide) _ _

theorem sysNext_readMemory {r : Reg} {s t : State}
    (h : finishSys r (doReadMemory (s.reg .a) (s.reg .b) (s.reg .c) s) = .next t) : SysNext r s .readMemory t := by
  obtain ⟨-, e⟩ | ⟨hr, req, -, ⟨bytes, ha, hb, e⟩ | ⟨k, ha, e⟩ | ⟨ha, e⟩ | ⟨ha, hb, e⟩⟩ :=
    doReadMemory_cases (s.reg .a) (s.reg .b) (s.reg .c) s <;>
    rw [e] at h <;> simp only [finishSys, raise, Host.Outcome.next.injEq, reduceCtorEq] at h <;> subst h
  · exact .rangeOutOfBounds _ (by decide) _ _
  · exact .memoryRead req _ bytes (by omega)
  · exact .hostError _ (by decide) _ _

theorem sysNext_write {r : Reg} {s t : State}
    (h : finishSys r (doWrite (s.reg .a) (s.reg .b) (s.reg .c) s) = .next t) : SysNext r s .write t := by
  obtain ⟨-, e⟩ | ⟨hr, req, -, ⟨k, ha, hb, e⟩ | ⟨k, ha, e⟩ | ⟨ha, e⟩ | ⟨ha, hb, e⟩⟩ :=
    doWrite_cases (s.reg .a) (s.reg .b) (s.reg .c) s <;>
    rw [e] at h <;> simp only [finishSys, raise, Host.Outcome.next.injEq, reduceCtorEq] at h <;> subst h
  · exact .rangeOutOfBounds _ (by decide) _ _
  · exact .wrote req k
  · exact .hostError _ (by decide) _ _

theorem sysNext_sleep {r : Reg} {s t : State} (h : finishSys r (doSleep (s.reg .a) s) = .next t) :
    SysNext r s .sleep t := by
  obtain ⟨-, e⟩ | ⟨-, e⟩ | ⟨-, -, e⟩ := doSleep_cases (s.reg .a) s <;>
    rw [e] at h <;> simp only [finishSys, Host.Outcome.next.injEq, reduceCtorEq] at h
  subst h
  exact .slept _

/-- Every way an instruction takes `s` to a next state. -/
inductive ExecNext (s : State) : Instr → State → Prop where
  | noneArg1 (i : Instr) (hop : i.opcode ≠ .stk) (hwf : i.wellFormed s.cfg = false) :
      ExecNext s i (s.latch (.faulted (.invalidOperand i.opcode .arg1)))
  | noneArg2 (i : Instr) (hop : i.opcode ≠ .stk) (hwf : i.wellFormed s.cfg = false) :
      ExecNext s i (s.latch (.faulted (.invalidOperand i.opcode .arg2)))
  | imm (rd : Reg) (v : Byte) : ExecNext s (.imm (some rd) v) (s.setReg rd v)
  | add (ra rb : Reg) : ExecNext s (.add (some ra) (some rb)) (s.setReg ra (s.reg ra + s.reg rb))
  | stkNothing : ExecNext s (.stk none none) s
  | stkPush (r : Reg) (hb : ¬(s.policy = .checked ∧ s.reg .s = 0xFF)) :
      ExecNext s (.stk none (some r)) ((s.setStkByte (s.reg .s) (s.reg r)).setReg .s (s.reg .s + 1))
  | stkPop (rd : Reg) (hb : ¬(s.policy = .checked ∧ s.reg .s = 0x00)) :
      ExecNext s (.stk (some rd) none) ((s.setReg .s (s.reg .s - 1)).setReg rd (s.stkByte (s.reg .s - 1)))
  | stkMove (rd r : Reg) (hb : ¬(s.policy = .checked ∧ s.reg .s = 0xFF)) :
      ExecNext s (.stk (some rd) (some r))
        (((((s.setStkByte (s.reg .s) (s.reg r)).setReg .s (s.reg .s + 1)).setReg .s (s.reg .s))).setReg rd (s.reg r))
  | stkOverflow (x : Option Reg) (r : Reg) (hp : s.policy = .checked) (hs : s.reg .s = 0xFF) :
      ExecNext s (.stk x (some r)) (s.latch (.faulted (.stackOverflow 0xFF)))
  | stkUnderflow (rd : Reg) (hp : s.policy = .checked) (hs : s.reg .s = 0x00) :
      ExecNext s (.stk (some rd) none) (s.latch (.faulted (.stackUnderflow 0x00)))
  | stm (rp rv : Reg) : ExecNext s (.stm (some rp) (some rv)) (s.setMemByte (s.reg rp) (s.reg rv))
  | ldm (rd rp : Reg) : ExecNext s (.ldm (some rd) (some rp)) (s.setReg rd (s.memByte (s.reg rp)))
  | cmp (ra rb : Reg) :
      ExecNext s (.cmp (some ra) (some rb)) (s.setReg .f (cmpFlags s.cfg (s.reg ra) (s.reg rb)))
  | jmpTaken (mask : Byte) (rt : Reg) (h : s.reg .f &&& mask ≠ 0) :
      ExecNext s (.jmp mask (some rt)) (s.setReg .i (s.reg rt))
  | jmpNotTaken (mask : Byte) (rt : Reg) (h : s.reg .f &&& mask = 0) : ExecNext s (.jmp mask (some rt)) s
  | sysUnsupported (code : Byte) (x : Option Reg) (h : s.cfg.syscallOf code = none) :
      ExecNext s (.sys code x) (s.latch (.faulted (.unsupportedSyscall code)))
  | sysExit (code : Byte) (x : Option Reg) (h : s.cfg.syscallOf code = some .exit) :
      ExecNext s (.sys code x) (s.latch (.halted (s.reg .a)))
  | sysReturns (code : Byte) (r : Reg) (n : Syscall) (t : State) (h : s.cfg.syscallOf code = some n)
      (hn : n ≠ .exit) (ht : SysNext r s n t) : ExecNext s (.sys code (some r)) t

theorem execImm_next {x : Option Reg} {v : Byte} {s t : State} (h : execImm x v s = .next t) :
    ExecNext s (.imm x v) t := by
  obtain ⟨rfl, rfl⟩ | ⟨r, rfl, hk⟩ := requireReg_next.mp h
  · exact .noneArg1 (.imm none v) (by simp [Instr.opcode]) rfl
  · cases hk; exact .imm r v

theorem execAdd_next {x y : Option Reg} {s t : State} (h : execAdd x y s = .next t) : ExecNext s (.add x y) t := by
  obtain ⟨rfl, rfl⟩ | ⟨-, rfl, rfl⟩ | ⟨r, q, rfl, rfl, hk⟩ := requireTwo_next.mp h
  · exact .noneArg1 (.add none y) (by simp [Instr.opcode]) (by simp [Instr.wellFormed])
  · exact .noneArg2 (.add x none) (by simp [Instr.opcode]) (by simp [Instr.wellFormed])
  · cases hk; exact .add r q

theorem execStm_next {x y : Option Reg} {s t : State} (h : execStm x y s = .next t) : ExecNext s (.stm x y) t := by
  obtain ⟨rfl, rfl⟩ | ⟨-, rfl, rfl⟩ | ⟨r, q, rfl, rfl, hk⟩ := requireTwo_next.mp h
  · exact .noneArg1 (.stm none y) (by simp [Instr.opcode]) (by simp [Instr.wellFormed])
  · exact .noneArg2 (.stm x none) (by simp [Instr.opcode]) (by simp [Instr.wellFormed])
  · cases hk; exact .stm r q

theorem execLdm_next {x y : Option Reg} {s t : State} (h : execLdm x y s = .next t) : ExecNext s (.ldm x y) t := by
  obtain ⟨rfl, rfl⟩ | ⟨-, rfl, rfl⟩ | ⟨r, q, rfl, rfl, hk⟩ := requireTwo_next.mp h
  · exact .noneArg1 (.ldm none y) (by simp [Instr.opcode]) (by simp [Instr.wellFormed])
  · exact .noneArg2 (.ldm x none) (by simp [Instr.opcode]) (by simp [Instr.wellFormed])
  · cases hk; exact .ldm r q

theorem execCmp_next {x y : Option Reg} {s t : State} (h : execCmp x y s = .next t) : ExecNext s (.cmp x y) t := by
  obtain ⟨rfl, rfl⟩ | ⟨-, rfl, rfl⟩ | ⟨r, q, rfl, rfl, hk⟩ := requireTwo_next.mp h
  · exact .noneArg1 (.cmp none y) (by simp [Instr.opcode]) (by simp [Instr.wellFormed])
  · exact .noneArg2 (.cmp x none) (by simp [Instr.opcode]) (by simp [Instr.wellFormed])
  · cases hk; exact .cmp r q

theorem execJmp_next {mask : Byte} {x : Option Reg} {s t : State} (h : execJmp mask x s = .next t) :
    ExecNext s (.jmp mask x) t := by
  obtain ⟨rfl, rfl⟩ | ⟨r, rfl, hk⟩ := requireReg_next.mp h
  · exact .noneArg2 (.jmp mask none) (by simp [Instr.opcode]) rfl
  · by_cases hj : s.reg .f &&& mask = 0
    · rw [if_neg (by simp [jumpTaken, hj])] at hk
      cases hk; exact .jmpNotTaken mask r hj
    · rw [if_pos (by simpa [jumpTaken] using hj)] at hk
      cases hk; exact .jmpTaken mask r hj

/-- STK with both halves, where the bound allows: the pop reads what the push wrote. -/
theorem execStk_move (rd r : Reg) (s : State) (hb : ¬(s.policy = .checked ∧ s.reg .s = 0xFF)) :
    execStk (some rd) (some r) s = .next
      (((((s.setStkByte (s.reg .s) (s.reg r)).setReg .s (s.reg .s + 1)).setReg .s (s.reg .s))).setReg rd (s.reg r)) := by
  have hpush : pushHalf (some r) s = .ok ((s.setStkByte (s.reg .s) (s.reg r)).setReg .s (s.reg .s + 1)) :=
    push_ok_iff.mpr ⟨hb, rfl⟩
  have hpop : popHalf (some rd) ((s.setStkByte (s.reg .s) (s.reg r)).setReg .s (s.reg .s + 1)) = .ok
      (((((s.setStkByte (s.reg .s) (s.reg r)).setReg .s (s.reg .s + 1)).setReg .s (s.reg .s))).setReg rd
        (s.reg r)) := by
    refine pop_ok_iff.mpr ⟨?_, ?_⟩
    · rintro ⟨hp, hz⟩
      rw [State.setReg_policy, State.setStkByte_policy] at hp
      rw [State.reg_setReg_self] at hz
      exact succ_ne_zero_of_ne_ff (s.reg .s) (fun h => hb ⟨hp, h⟩) hz
    · simp [State.stkByte_setStkByte]
  simp only [execStk, hpush, hpop]

/-- STK with the push alone, where the bound allows. -/
theorem execStk_push (r : Reg) (s : State) (hb : ¬(s.policy = .checked ∧ s.reg .s = 0xFF)) :
    execStk none (some r) s = .next ((s.setStkByte (s.reg .s) (s.reg r)).setReg .s (s.reg .s + 1)) := by
  simp only [execStk, pushHalf, push_ok_iff.mpr ⟨hb, rfl⟩, popHalf]

/-- STK with the pop alone, where the bound allows. -/
theorem execStk_pop (rd : Reg) (s : State) (hb : ¬(s.policy = .checked ∧ s.reg .s = 0x00)) :
    execStk (some rd) none s = .next ((s.setReg .s (s.reg .s - 1)).setReg rd (s.stkByte (s.reg .s - 1))) := by
  simp only [execStk, pushHalf, popHalf, pop_ok_iff.mpr ⟨hb, rfl⟩]

/-- STK with a push at S = 0xFF under `checked`: the pop is never reached. -/
theorem execStk_overflow (x : Option Reg) (r : Reg) (s : State) (hp : s.policy = .checked) (hs : s.reg .s = 0xFF) :
    execStk x (some r) s = .next (s.latch (.faulted (.stackOverflow 0xFF))) := by
  simp only [execStk, pushHalf, push_error_iff.mpr ⟨hp, hs, rfl⟩, raise]

/-- STK with a pop alone at S = 0x00 under `checked`. -/
theorem execStk_underflow (rd : Reg) (s : State) (hp : s.policy = .checked) (hs : s.reg .s = 0x00) :
    execStk (some rd) none s = .next (s.latch (.faulted (.stackUnderflow 0x00))) := by
  simp only [execStk, pushHalf, popHalf, pop_error_iff.mpr ⟨hp, hs, rfl⟩, raise]

theorem execStk_next {x y : Option Reg} {s t : State} (h : execStk x y s = .next t) : ExecNext s (.stk x y) t := by
  cases y with
  | none =>
    cases x with
    | none => cases h; exact .stkNothing
    | some rd =>
      by_cases hb : s.policy = .checked ∧ s.reg .s = 0x00
      · rw [execStk_underflow rd s hb.1 hb.2] at h; cases h; exact .stkUnderflow rd hb.1 hb.2
      · rw [execStk_pop rd s hb] at h; cases h; exact .stkPop rd hb
  | some r =>
    by_cases hb : s.policy = .checked ∧ s.reg .s = 0xFF
    · rw [execStk_overflow x r s hb.1 hb.2] at h; cases h; exact .stkOverflow x r hb.1 hb.2
    · cases x with
      | none => rw [execStk_push r s hb] at h; cases h; exact .stkPush r hb
      | some rd => rw [execStk_move rd r s hb] at h; cases h; exact .stkMove rd r hb

theorem execSys_next {code : Byte} {x : Option Reg} {s t : State} (h : execSys code x s = .next t) :
    ExecNext s (.sys code x) t := by
  unfold execSys at h
  cases hn : s.cfg.syscallOf code with
  | none => rw [hn] at h; cases raise_next_iff.mp h; exact .sysUnsupported code x hn
  | some n =>
    rw [hn] at h
    cases n <;> simp only at h
    case exit => cases halt_next_iff.mp h; exact .sysExit code x hn
    all_goals
      obtain ⟨rfl, rfl⟩ | ⟨r, rfl, hk⟩ := requireReg_next.mp h
      · exact .noneArg2 (.sys code none) (by simp [Instr.opcode]) (by simp [Instr.wellFormed, hn])
      · exact .sysReturns code r _ t hn (by simp)
          (by first
            | exact sysNext_open hk
            | exact sysNext_readCode hk
            | exact sysNext_readMemory hk
            | exact sysNext_write hk
            | exact sysNext_sleep hk)

/-- Everything an instruction that ends in a next state can do. -/
theorem exec_next {i : Instr} {s t : State} (h : exec i s = .next t) : ExecNext s i t := by
  cases i with
  | imm x v => exact execImm_next h
  | add x y => exact execAdd_next h
  | stk x y => exact execStk_next h
  | stm x y => exact execStm_next h
  | ldm x y => exact execLdm_next h
  | cmp x y => exact execCmp_next h
  | jmp mask x => exact execJmp_next h
  | sys code x => exact execSys_next h

/-- Everything a step that ends in a next state can do. -/
theorem step_next {s t : State} (h : step s = .next t) :
    s.outcome = .running ∧
      ((s.fetch = none ∧ t = s.latch (.faulted (.programCounterOutOfRange (s.reg .i)))) ∨
       ∃ ins, s.fetch = some ins ∧ exec ins s.advance = .next t ∧ ExecNext s.advance ins t) := by
  unfold step at h
  split at h
  · cases h
  · cases h
  · rename_i ho
    refine ⟨ho, ?_⟩
    split at h
    · rename_i hf; exact .inl ⟨hf, raise_next_iff.mp h⟩
    · rename_i ins hf; exact .inr ⟨ins, hf, h, exec_next h⟩

end Sys2Proof.Machine
end

