-- ==== Sys2Proof/Laws/PerInstr.lean ====
section
/-! SUPPORT. The per-instruction family FixedWidth: every instruction encodes in one word of three bytes, whatever the
configuration (spec/30_encoding.md R90, R103). -/

/-- The encoding of an instruction has three bytes under every configuration. -/
def Sys2Proof.Laws.FixedWidth.Statement (i : Sys2Proof.Instr) : Prop :=
  ∀ C : Sys2Proof.Constants, (Sys2Proof.encode C i).length = 3

namespace Sys2Proof.Laws.FixedWidth

theorem imm (dst : Option Reg) (imm8 : Byte) : Statement (.imm dst imm8) := fun _ => rfl
theorem add (x y : Option Reg) : Statement (.add x y) := fun _ => rfl
theorem stk (popDst pushSrc : Option Reg) : Statement (.stk popDst pushSrc) := fun _ => rfl
theorem stm (addrReg valReg : Option Reg) : Statement (.stm addrReg valReg) := fun _ => rfl
theorem ldm (dst addrReg : Option Reg) : Statement (.ldm dst addrReg) := fun _ => rfl
theorem cmp (x y : Option Reg) : Statement (.cmp x y) := fun _ => rfl
theorem jmp (condMask : Byte) (targetReg : Option Reg) : Statement (.jmp condMask targetReg) := fun _ => rfl
theorem sys (code : Byte) (resultReg : Option Reg) : Statement (.sys code resultReg) := fun _ => rfl

end Sys2Proof.Laws.FixedWidth
end

