-- ==== Sys2Proof/Machine/Observer.lean ====
section
/-! DEFINITION. The observer port (spec/40_engine.md R137): outputs computed from states, "a pure side channel, never
influencing engine state"; no definition of the step reads them (log 13). -/
namespace Sys2Proof.Machine

/-- `Observe(i, ins)`: the fetched index and the decoded instruction. -/
structure Observation where
  index : Byte
  instr : Instr
deriving DecidableEq, Repr

/-- What the step about to be taken emits after the advance and before dispatch: nothing where the block has stopped or
the fetch faults. -/
def State.observeFetch (s : State) : Option Observation :=
  match s.outcome with
  | .running =>
    match s.fetch with
    | some ins => some { index := s.reg .i, instr := ins }
    | none => none
  | _ => none

/-- `Observed(x[A..F])`: what a step that ended so may emit after dispatch, when it did not fault. -/
def observeResult : Result → Option Regs
  | .next t =>
    match t.outcome with
    | .faulted _ => none
    | _ => some t.regs
  | _ => none

end Sys2Proof.Machine
end

