-- ==== Sys2Proof/Tests/Slice0.lean ====
section
/-! SUPPORT. Tests. Expected results are the vectors of spec/95_test_vectors.md, or words and values worked out by hand
from the rules named; none is the model's own answer. Then one witness for every statement that has hypotheses. -/
namespace Sys2Proof.Tests
open Sys2Proof.Machine

/-! ### Helpers -/

/-- CFG-EX, policy `checked`, no program, and the registers given. -/
def withRegs (x : Regs) : State := { State.reset with regs := x }

/-- The named answers of the host, in order. -/
def scripted (answers : List HostResponse) (s : State) : State := { s with hostIn := answers }

/-- One step at index `k`, with `ins` standing there. -/
def stepAt (k : Byte) (ins : Instr) (s : State) : Result := step ((s.setReg .i k).placeAtFetch ins)

/-- The next state of a result, if it is one. -/
def next? : Result → Option State
  | .next t => some t
  | _ => none

/-- What a next state shows through `f`. -/
def sees {α : Type} (f : State → α) (r : Result) : Option α := (next? r).map f

/-! ### Well-formedness: one refused term for each check (60_exceptions.md R224) -/

theorem test_wellFormed_accepts :
    [Instr.imm (some .a) 1, .add (some .a) (some .i), .stk none none, .stm (some .s) (some .f), .ldm (some .d) (some .d),
      .cmp (some .a) (some .a), .jmp 0 (some .b), .sys 0x01 (some .a), .sys 0x20 none].all (·.wellFormed cfgEx) = true := by
  decide

theorem test_wellFormed_refuses_imm : (Instr.imm none 1).wellFormed cfgEx = false := by decide
theorem test_wellFormed_refuses_add_arg1 : (Instr.add none (some .b)).wellFormed cfgEx = false := by decide
theorem test_wellFormed_refuses_add_arg2 : (Instr.add (some .a) none).wellFormed cfgEx = false := by decide
theorem test_wellFormed_refuses_stm_arg1 : (Instr.stm none (some .b)).wellFormed cfgEx = false := by decide
theorem test_wellFormed_refuses_stm_arg2 : (Instr.stm (some .a) none).wellFormed cfgEx = false := by decide
theorem test_wellFormed_refuses_ldm_arg1 : (Instr.ldm none (some .b)).wellFormed cfgEx = false := by decide
theorem test_wellFormed_refuses_ldm_arg2 : (Instr.ldm (some .a) none).wellFormed cfgEx = false := by decide
theorem test_wellFormed_refuses_cmp_arg1 : (Instr.cmp none (some .b)).wellFormed cfgEx = false := by decide
theorem test_wellFormed_refuses_cmp_arg2 : (Instr.cmp (some .a) none).wellFormed cfgEx = false := by decide
theorem test_wellFormed_refuses_jmp : (Instr.jmp 0 none).wellFormed cfgEx = false := by decide
theorem test_wellFormed_refuses_sys : (Instr.sys 0x08 none).wellFormed cfgEx = false := by decide

/-! ### Configurations (95_test_vectors.md, Configuration; 70_reset_and_hazards.md R262) -/

theorem test_config_accepts :
    configValid cfgEx = true ∧
    configValid { cfgEx with reg := { cfgEx.reg with f := 0x80 } } = true ∧
    configValid { cfgEx with op := { cfgEx.op with add := 0x03 } } = true ∧
    configValid { cfgEx with layout := { pOp := 2, pArg1 := 0, pArg2 := 1 } } = true := by decide

theorem test_config_refuses_duplicate_register :
    configValid { cfgEx with reg := { cfgEx.reg with b := 0x01 } } = false := by decide
theorem test_config_refuses_register_not_one_bit :
    configValid { cfgEx with reg := { cfgEx.reg with b := 0x03 } } = false ∧
    configValid { cfgEx with reg := { cfgEx.reg with b := 0x00 } } = false := by decide
theorem test_config_refuses_duplicate_flag :
    configValid { cfgEx with flag := { cfgEx.flag with z := 0x04 } } = false := by decide
theorem test_config_refuses_duplicate_opcode :
    configValid { cfgEx with op := { cfgEx.op with add := 0x01 } } = false := by decide
theorem test_config_refuses_missing_syscall :
    configValid { cfgEx with sys := cfgEx.sys.filter fun e => e.1 != .known .sleep } = false := by decide
theorem test_config_refuses_other_syscall_name :
    configValid { cfgEx with sys := (.other 0, 0x40) :: cfgEx.sys } = false := by decide
theorem test_config_refuses_layout :
    configValid { cfgEx with layout := { pOp := 0, pArg1 := 0, pArg2 := 2 } } = false := by decide

/-! ### Decoding: every constructor's word, written out from 30_encoding.md R92, R97 and R104 -/

theorem test_decode_imm :
    decodeTableWord 24 0b00000001_00000001_00101010 = some (.imm (some .a) 0x2A) := by decide
theorem test_decode_add :
    decodeTableWord 24 0b00000010_00001000_00100000 = some (.add (some .d) (some .i)) := by decide
theorem test_decode_stk :
    decodeTableWord 24 0b00000100_00000010_00000100 = some (.stk (some .b) (some .c)) ∧
    decodeTableWord 24 0b00000100_00000000_00000000 = some (.stk none none) := by decide
theorem test_decode_stm :
    decodeTableWord 24 0b00001000_00000100_00000001 = some (.stm (some .c) (some .a)) := by decide
theorem test_decode_ldm :
    decodeTableWord 24 0b00010000_00001000_00000100 = some (.ldm (some .d) (some .c)) := by decide
theorem test_decode_cmp :
    decodeTableWord 24 0b00100000_01000000_00010000 = some (.cmp (some .f) (some .s)) := by decide
theorem test_decode_jmp :
    decodeTableWord 24 0b01000000_11111111_00000000 = some (.jmp 0xFF none) ∧
    decodeTableWord 24 0b01000000_00000001_00001000 = some (.jmp 0x01 (some .d)) := by decide
theorem test_decode_sys :
    decodeTableWord 24 0b10000000_00000011_00000010 = some (.sys 0x03 (some .b)) ∧
    decodeTableWord 24 0b10000000_00100000_00000000 = some (.sys 0x20 none) := by decide

/-- 95_test_vectors.md, Decode: the layout (2, 0, 1) and the rejected words. -/
theorem test_decode_layout :
    decode { cfgEx with layout := { pOp := 2, pArg1 := 0, pArg2 := 1 } } [0x01, 0x2A, 0x01] =
      .ok (.imm (some .a) 0x2A, []) := by rfl
theorem test_decode_rejects :
    decode cfgEx [0x02, 0x03, 0x01] = .error (.register 0x03) ∧ decode cfgEx [0x02, 0x01, 0x80] = .error (.register 0x80) ∧
    decode cfgEx [0x03, 0x01, 0x01] = .error (.opcode 0x03) ∧ decode cfgEx [0x05, 0x05, 0x05] = .error (.opcode 0x05) ∧
    decode cfgEx [0x02, 0x03, 0x05] = .error (.register 0x03) := ⟨rfl, rfl, rfl, rfl, rfl⟩
theorem test_encode :
    encode cfgEx (.stk (some .b) (some .c)) = [0x04, 0x02, 0x04] ∧
    encode { cfgEx with layout := { pOp := 2, pArg1 := 0, pArg2 := 1 } } (.imm (some .a) 0x2A) = [0x01, 0x2A, 0x01] := by
  decide

/-! ### One step of each instruction (95_test_vectors.md) -/

/-- IMM F, 0xFF keeps bits that are no flag. -/
theorem test_imm_flags :
    sees (fun t => (t.reg .f, t.reg .i)) (stepAt 0 (.imm (some .f) 0xFF) State.reset) = some (0xFF, 1) := by decide
/-- IMM NONE, 1 at index 2. -/
theorem test_imm_none :
    sees (fun t => (t.outcome, t.reg .i)) (stepAt 2 (.imm none 1) State.reset) =
      some (.faulted (.invalidOperand .imm .arg1), 3) := by decide

/-- W1: 200 + 100 wraps to 44 and leaves B and F. -/
theorem test_add_wraps :
    sees (fun t => (t.reg .a, t.reg .b, t.reg .f))
      (stepAt 0 (.add (some .a) (some .b)) (withRegs { Regs.zero with a := 200, b := 100, f := 9 })) =
      some (44, 100, 9) := by decide
/-- ADD I, B at index 3 with B = 2 gives 4 + 2. -/
theorem test_add_into_i :
    sees (fun t => t.reg .i) (stepAt 3 (.add (some .i) (some .b)) (withRegs { Regs.zero with b := 2 })) = some 6 := by
  decide

/-- STK B, C with S = 3, C = 9. -/
theorem test_stk_moves :
    sees (fun t => (t.reg .b, t.reg .s, t.stkByte 3))
      (stepAt 0 (.stk (some .b) (some .c)) (withRegs { Regs.zero with c := 9, s := 3 })) = some (9, 3, 9) := by decide
/-- STK S, NONE with S = 1, Stk[0] = 9: the popped byte wins. -/
theorem test_stk_pops_into_s :
    sees (fun t => t.reg .s)
      (stepAt 0 (.stk (some .s) none) ((withRegs { Regs.zero with s := 1 }).setStkByte 0 9)) = some 9 := by decide

/-- STM B, I at index 9 with B = 0x10 stores 0x0A. -/
theorem test_stm_stores_advanced_i :
    sees (fun t => t.memByte 0x10) (stepAt 9 (.stm (some .b) (some .i)) (withRegs { Regs.zero with b := 0x10 })) =
      some 0x0A := by decide
/-- STM NONE, A. -/
theorem test_stm_none :
    sees (fun t => t.outcome) (stepAt 0 (.stm none (some .a)) State.reset) =
      some (.faulted (.invalidOperand .stm .arg1)) := by decide

/-- LDM A, A with A = 0x40, Mem[0x40] = 7: the address is read first. -/
theorem test_ldm_same_register :
    sees (fun t => t.reg .a)
      (stepAt 0 (.ldm (some .a) (some .a)) ((withRegs { Regs.zero with a := 0x40 }).setMemByte 0x40 7)) = some 7 := by
  decide
/-- LDM A, NONE. -/
theorem test_ldm_none :
    sees (fun t => t.outcome) (stepAt 0 (.ldm (some .a) none) State.reset) =
      some (.faulted (.invalidOperand .ldm .arg2)) := by decide

/-- CMP of 0xFF and 1, with F = 0xE0 before: unsigned, and F replaced. -/
theorem test_cmp_unsigned :
    sees (fun t => t.reg .f)
      (stepAt 0 (.cmp (some .a) (some .b)) (withRegs { Regs.zero with a := 0xFF, b := 1, f := 0xE0 })) = some 0x0A := by
  decide
/-- CMP F, A with F = A = 9: the old F is compared. -/
theorem test_cmp_reads_old_f :
    sees (fun t => t.reg .f)
      (stepAt 0 (.cmp (some .f) (some .a)) (withRegs { Regs.zero with a := 9, f := 9 })) = some 0x04 := by decide

/-- JMP under mask 0x80 with F = 0x80: a bit that is no flag is still tested. -/
theorem test_jmp_taken :
    sees (fun t => t.reg .i)
      (stepAt 3 (.jmp 0x80 (some .d)) (withRegs { Regs.zero with d := 7, f := 0x80 })) = some 7 := by decide
/-- JMP under mask 0 with F = 0xFF is not taken. -/
theorem test_jmp_zero_mask :
    sees (fun t => t.reg .i)
      (stepAt 3 (.jmp 0 (some .d)) (withRegs { Regs.zero with d := 7, f := 0xFF })) = some 4 := by decide

/-- SYS EXIT, B with A = 7; a short READ_MEMORY; OPEN of a descriptor above 255; a WRITE that runs past the end. -/
theorem test_sys_one_step :
    sees (fun t => (t.outcome, t.reg .b)) (stepAt 0 (.sys 0x20 (some .b)) (withRegs { Regs.zero with a := 7 })) =
      some (.halted 7, 0) ∧
    sees (fun t => (t.reg .d, t.memByte 0x11, t.memByte 0x12, t.memByte 0x13, t.hostOut))
      (stepAt 0 (.sys 0x04 (some .d)) (scripted [.data [0x61, 0x62, 0x63]]
        ((withRegs { Regs.zero with b := 0x10, c := 5 }).setMemByte 0x13 0x55))) =
      some (3, 0x62, 0x63, 0x55, [.readFile 0 5]) ∧
    sees (fun t => (t.outcome, t.reg .d, t.fdtable, t.hostOut))
      (stepAt 0 (.sys 0x01 (some .d)) (scripted [.opened 300] (withRegs { Regs.zero with a := 0x10 }))) =
      some (.faulted (.fileDescriptorOverflow 300), 0, [300], [.openFile []]) ∧
    sees (fun t => (t.outcome, t.hostOut))
      (stepAt 0 (.sys 0x08 (some .d)) (withRegs { Regs.zero with a := 1, b := 0xF0, c := 0x20 })) =
      some (.faulted (.outOfBounds 0xF0 0x20), []) := ⟨by decide, by decide, by decide, by decide⟩

/-- READ_CODE into index 1, a partial word, WRITE with the result in A, SLEEP, and a code that is a union of two. -/
theorem test_sys_one_step_more :
    sees (fun t => (t.prog, t.reg .d))
      (exec (.sys 0x02 (some .d)) (scripted [.data [0x01, 0x02, 0x05, 0x40, 0x01, 0x08]]
        { withRegs { Regs.zero with a := 3, b := 1, c := 2 } with prog := List.replicate 4 nop })) =
      some ([nop, .imm (some .b) 5, .jmp 0x01 (some .d), nop], 2) ∧
    sees (fun t => (t.outcome, t.prog))
      (exec (.sys 0x02 (some .d)) (scripted [.data [0x01, 0x01, 0x2A, 0x01]]
        { withRegs { Regs.zero with a := 3, b := 1, c := 2 } with prog := [nop] })) =
      some (.faulted (.decodeError .partialWord), [nop]) ∧
    sees (fun t => (t.reg .a, t.hostOut))
      (exec (.sys 0x08 (some .a)) (scripted [.wrote 1]
        ((withRegs { Regs.zero with a := 0x10, b := 0x20, c := 2 }).setMemByte 0x21 0x33))) =
      some (1, [.writeFile 0x10 [0, 0x33]]) ∧
    sees (fun t => (t.reg .d, t.hostOut))
      (exec (.sys 0x10 (some .d)) (scripted [.slept] (withRegs { Regs.zero with a := 2, d := 9 }))) =
      some (0, [.sleep 2]) ∧
    sees (fun t => t.outcome) (exec (.sys 0x03 (some .b)) State.reset) =
      some (.faulted (.unsupportedSyscall 0x03)) :=
  ⟨by decide, by decide, by decide, by decide, by decide⟩

/-! ### Reset, the fetch and the host's two stops -/

/-- 95_test_vectors.md, Engine: ProgLen = 0 at reset. -/
theorem test_reset_step_faults :
    sees (fun t => (t.outcome, t.reg .i)) (step State.reset) = some (.faulted (.programCounterOutOfRange 0), 0) := by
  decide

/-- A placed table word is what the first step after reset runs. -/
theorem test_placed_word_runs :
    sees (fun t => (t.reg .a, t.reg .i)) (step (State.reset.withFetchWord 24 0x01012A)) = some (0x2A, 1) := by decide

/-- The observer sees the fetched index and instruction (40_engine.md R137). -/
theorem test_observer :
    (State.reset.withFetchWord 24 0x01012A).observeFetch = some { index := 0, instr := .imm (some .a) 0x2A } := by decide

/-- 45_sys.md R205: silence leaves the step unfinished, an answer out of range is refused. -/
theorem test_host_stops :
    exec (.sys 0x10 (some .a)) (scripted [.silent] State.reset) = .fault (.hostNeverAnswers (.sleep 0)) ∧
    exec (.sys 0x04 (some .a)) (scripted [.data [1]] State.reset) =
      .refused (.hostOutsideContract (.readFile 0 0) (.data [1])) := ⟨rfl, rfl⟩

/-! ### Witnesses: states and operands that meet the hypotheses of each statement, a clause at a time -/

theorem test_witness_DecodeReadsWhatEncodeWrites : configValid cfgEx = true := by decide

theorem test_witness_DecodedBytesAreTheEncoding :
    configValid cfgEx = true ∧ decode cfgEx [0x80, 0x20, 0x00, 0xFF] = .ok (.sys 0x20 none, [0xFF]) := ⟨by decide, rfl⟩

theorem test_witness_ProgramStreamRoundTrip : configValid { cfgEx with reg := { cfgEx.reg with a := 0x80 } } = true := by
  decide

theorem test_witness_OpcodeByteSelectsVariant :
    (∀ m, cfgEx.opCode m ≠ 0xFF) ∧ opsValid cfgEx = true ∧ cfgEx.opCode .sys = 0x80 ∧
    decodeFields cfgEx 0x80 0xFF 0x00 = .ok (.sys 0xFF none) :=
  ⟨fun m => by cases m <;> decide, by decide, by decide, rfl⟩

theorem test_witness_RegisterByteDecodes :
    regsValid cfgEx = true ∧ cfgEx.regCode .f = 0x40 ∧ (0x80 : Byte) ≠ 0 ∧ ∀ r, cfgEx.regCode r ≠ 0x80 :=
  ⟨by decide, by decide, by decide, fun r => by cases r <;> decide⟩

theorem test_witness_DecodeRejectsOnlyThreeWays :
    configValid cfgEx = true ∧ decode cfgEx [0x01, 0x01] = .error .partialWord ∧
    decode cfgEx [0x00, 0x01, 0x01] = .error (.opcode 0x00) ∧ decode cfgEx [0x40, 0xFF, 0xFF] = .error (.register 0xFF) :=
  ⟨by decide, rfl, rfl, rfl⟩

/-- Each cause, for the converse: two bytes; op 0x00; STK with arg1 0x80; STK with arg1 None and arg2 0x80; JMP with arg2
0x80. -/
theorem test_witness_DecodeRejectsOnlyThreeWays_causes :
    configValid cfgEx = true ∧ ([0x01, 0x01] : List Byte).length < 3 ∧
    (∀ m, cfgEx.opCode m ≠ byteAt 0x00 0x01 0x01 cfgEx.layout.pOp) ∧
    (cfgEx.opCode .stk = byteAt 0x04 0x80 0x00 cfgEx.layout.pOp ∧ Opcode.stk ≠ .jmp ∧ Opcode.stk ≠ .sys ∧
      Opcode.stk ≠ .imm ∧ byteAt 0x04 0x80 0x00 cfgEx.layout.pArg1 ≠ 0) ∧
    (∀ r, cfgEx.regCode r ≠ byteAt 0x04 0x80 0x00 cfgEx.layout.pArg1) ∧
    (decodeReg cfgEx (byteAt 0x04 0x00 0x80 cfgEx.layout.pArg1) = .ok none ∧
      byteAt 0x04 0x00 0x80 cfgEx.layout.pArg2 ≠ 0) ∧
    (∀ r, cfgEx.regCode r ≠ byteAt 0x04 0x00 0x80 cfgEx.layout.pArg2) ∧
    cfgEx.opCode .jmp = byteAt 0x40 0xFF 0x80 cfgEx.layout.pOp ∧ byteAt 0x40 0xFF 0x80 cfgEx.layout.pArg2 = 0x80 :=
  ⟨by decide, by decide, fun m => by cases m <;> decide, by decide, fun r => by cases r <;> decide,
    ⟨rfl, by decide⟩, fun r => by cases r <;> decide, by decide, by decide⟩

theorem test_witness_ConstructionResetValues :
    configValid cfgEx = true ∧ configValid { cfgEx with flag := { cfgEx.flag with l := 0x03 } } = false := by decide

theorem test_witness_ConfigurationValidation :
    configValid { cfgEx with layout := { pOp := 0, pArg1 := 1, pArg2 := 3 } } = false := by decide

theorem test_witness_RegisterSlots : regsValid State.reset.cfg = true := by decide

theorem test_witness_CodesDoNotChangeMeanings :
    ∀ code r, Instr.sys 0x20 none = .sys code r → State.reset.cfg.syscallOf code ≠ some .readCode := by
  intro code r h
  cases h
  decide

theorem test_witness_StepRunsFetchedInstruction :
    ({ State.reset with prog := [nop] } : State).outcome = .running ∧
    ({ State.reset with prog := [nop] } : State).prog[(State.reset.reg .i).toNat]? = some nop := by decide

theorem test_witness_PlacedWordIsWhatStepRuns :
    decodeWordWith State.reset.cfg 24 0x802000 = some (.sys 0x20 none) ∧
    decodeWordWith (withRegs { Regs.zero with i := 3 }).cfg 24 0x01012A = some (.imm (some .a) 0x2A) ∧
    (0 < ({ State.reset with prog := [nop] } : State).prog.length ∧
      0 ≠ ((withRegs { Regs.zero with i := 3 }).reg .i).toNat) := by decide

theorem test_witness_FetchBeyondProgramFaults :
    (({ State.reset with prog := [nop] } : State).reg .i).toNat < ({ State.reset with prog := [nop] } : State).prog.length ∧
    State.reset.outcome = .running ∧ State.reset.prog.length ≤ (State.reset.reg .i).toNat := by decide

theorem test_witness_StoppedBlockTakesNoStep :
    (State.reset.latch (.halted 0xFF)).outcome = .halted 0xFF ∧
    (State.reset.latch (.faulted (.stackOverflow 0xFF))).outcome = .faulted (.stackOverflow 0xFF) := by decide

/-- The four corners of S and the policy, for PushRule, PopRule and the statements on STK. -/
def atS (v : Byte) (p : StackPolicy) : State := { withRegs { Regs.zero with s := v } with policy := p }

theorem test_witness_PushRule :
    ((atS 0xFF .checked).policy = .checked ∧ (atS 0xFF .checked).reg .s = 0xFF) ∧
    (atS 0xFF .wrap).policy = .wrap ∧ (atS 0xFE .checked).reg .s ≠ 0xFF := by decide

theorem test_witness_PopRule :
    ((atS 0x00 .checked).policy = .checked ∧ (atS 0x00 .checked).reg .s = 0x00) ∧
    (atS 0x00 .wrap).policy = .wrap ∧ (atS 0x01 .checked).reg .s ≠ 0x00 ∧ Reg.a ≠ .s := by decide

theorem test_witness_StkCompletesInEveryForm :
    (atS 0xFE .checked).reg .s ≠ 0xFF ∧ (atS 0x01 .checked).reg .s ≠ 0x00 ∧ (atS 0xFF .wrap).policy = .wrap ∧
    Reg.b ≠ .s := by decide

theorem test_witness_StkBoundsUnderChecked :
    ((atS 0xFF .checked).policy = .checked ∧ (atS 0xFF .checked).reg .s = 0xFF) ∧
    ((atS 0x00 .checked).policy = .checked ∧ (atS 0x00 .checked).reg .s = 0x00) := by decide

theorem test_witness_StackFaultsOnlyUnderChecked :
    (∃ t, (atS 0xFF .checked).outcome = .running ∧ exec (.stk none (some .a)) (atS 0xFF .checked) = .next t ∧
      t.outcome = .faulted (.stackOverflow 0xFF)) ∧
    (∃ t, (atS 0x00 .checked).outcome = .running ∧ exec (.stk (some .a) none) (atS 0x00 .checked) = .next t ∧
      t.outcome = .faulted (.stackUnderflow 0x00)) ∧
    (atS 0xFF .wrap).policy = .wrap ∧ Reg.i ≠ .s :=
  ⟨⟨_, by decide, rfl, by decide⟩, ⟨_, by decide, rfl, by decide⟩, by decide, by decide⟩

theorem test_witness_StkTestableProperties :
    (withRegs { Regs.zero with s := 1, c := 42 }).reg .s ≠ 0xFF ∧ (withRegs { Regs.zero with s := 1, c := 42 }).reg .s ≠ 0 ∧
    (withRegs { Regs.zero with s := 1, c := 42 }).reg .c = 42 ∧ Reg.d ≠ .s := by decide

theorem test_witness_StmStoresOneByte : (0x21 : Byte) ≠ (withRegs { Regs.zero with c := 0x20 }).reg .c := by decide

theorem test_witness_StoreThenLoadReturnsValue :
    (withRegs { Regs.zero with b := 0xFF, c := 0xFF }).reg .c = (withRegs { Regs.zero with b := 0xFF, c := 0xFF }).reg .b := by
  decide

theorem test_witness_RangeAccessBounds :
    256 < (0xFF : Byte).toNat + 2 ∧ (0xFF : Byte).toNat + 1 ≤ 256 ∧
    256 < (0xFF : Byte).toNat + ([1, 2] : List Byte).length ∧ (0xFE : Byte).toNat + ([1, 2] : List Byte).length ≤ 256 ∧
    (0xFD : Byte).toNat < (0xFE : Byte).toNat ∧ (0xFE : Byte).toNat + ([1] : List Byte).length ≤ (0xFF : Byte).toNat := by
  decide

theorem test_witness_CmpRecomputesFlags :
    ((withRegs { Regs.zero with b := 1 }).reg .a).toNat < ((withRegs { Regs.zero with b := 1 }).reg .b).toNat ∧
    ((withRegs { Regs.zero with a := 0xFF }).reg .b).toNat < ((withRegs { Regs.zero with a := 0xFF }).reg .a).toNat ∧
    ((withRegs { Regs.zero with a := 1, b := 1 }).reg .a = (withRegs { Regs.zero with a := 1, b := 1 }).reg .b ∧
      (withRegs { Regs.zero with a := 1, b := 1 }).reg .a ≠ 0) ∧
    (State.reset.reg .a = 0 ∧ State.reset.reg .b = 0) := by decide

theorem test_witness_CmpSetsEachFlagByItsCondition :
    configValid cfgEx = true ∧ ∀ f, (0x20 : Byte) &&& cfgEx.flagBit f = 0 :=
  ⟨by decide, fun f => by cases f <;> decide⟩

theorem test_witness_JmpTestsFlagsAndMask :
    (withRegs { Regs.zero with f := 0x80 }).reg .f &&& 0xFF ≠ 0 ∧
    (withRegs { Regs.zero with f := 0x80 }).reg .f &&& 0x7F = 0 := by decide

theorem test_witness_SyscallDispatchIsExact :
    (∀ n, State.reset.cfg.sysCode n ≠ some 0x03) ∧ sysValid State.reset.cfg = true :=
  ⟨fun n => by cases n <;> decide, by decide⟩

theorem test_witness_SysNeedsResultRegister :
    State.reset.cfg.syscallOf 0x10 = some .sleep ∧ Syscall.sleep ≠ .exit := by decide

theorem test_witness_ExitHaltsWithCodeInA : State.reset.cfg.syscallOf 0x20 = some .exit := by decide

/-- A path of one byte that ends at 0xFF; an empty path at 0xFF; no terminator at 0xFF. -/
theorem test_witness_PathScanStopsAtTerminator :
    ((0xFE : Byte).toNat + 1 ≤ 255 ∧ (State.reset.setMemByte 0xFE 0x41).memByte (BitVec.ofNat 8 (0xFE + 1)) = 0 ∧
      ∀ k, k < 1 → (State.reset.setMemByte 0xFE 0x41).memByte (BitVec.ofNat 8 (0xFE + k)) ≠ 0) ∧
    ((0xFF : Byte).toNat + 0 ≤ 255 ∧ State.reset.memByte (BitVec.ofNat 8 (0xFF + 0)) = 0) ∧
    (∀ k, (0xFF : Byte).toNat + k ≤ 255 → (State.reset.setMemByte 0xFF 1).memByte (BitVec.ofNat 8 (0xFF + k)) ≠ 0) := by
  refine ⟨by decide, by decide, fun k hk => ?_⟩
  have h : (0xFF : Byte).toNat = 255 := by decide
  obtain rfl : k = 0 := by omega
  decide

theorem test_witness_OpenReturnsDescriptor :
    State.reset.cfg.syscallOf 0x01 = some .openFile ∧
    (scripted [.opened 255] State.reset).readCString ((scripted [.opened 255] State.reset).reg .a) = .ok [] ∧
    (scripted [.opened 255] State.reset).answer (.openFile []) = .opened 255 ∧ 255 ≤ 255 :=
  ⟨by decide, rfl, rfl, by decide⟩

theorem test_witness_OpenFaults :
    State.reset.cfg.syscallOf 0x01 = some .openFile ∧
    ((withRegs { Regs.zero with a := 0xFF }).setMemByte 0xFF 1).readCString 0xFF = .error (.outOfBounds 255 1) ∧
    (State.reset.readCString (State.reset.reg .a) = .ok [] ∧
      (scripted [.err 2] State.reset).answer (.openFile []) = .err 2) ∧
    ((scripted [.opened 256] State.reset).answer (.openFile []) = .opened 256 ∧ 255 < 256) :=
  ⟨by decide, rfl, ⟨rfl, rfl⟩, rfl, by decide⟩

/-- A start at ProgLen exactly, and one instruction read there. -/
def readsCode : State := scripted [.data [0x80, 0x20, 0x00]] (withRegs { Regs.zero with a := 3, c := 1 })

theorem test_witness_ReadCodeOverwritesEntries :
    readsCode.cfg.syscallOf 0x02 = some .readCode ∧ (readsCode.reg .b).toNat + (readsCode.reg .c).toNat ≤ 256 ∧
    (readsCode.reg .b).toNat ≤ readsCode.progLen ∧
    readsCode.answer (.readFile (readsCode.reg .a) (3 * (readsCode.reg .c).toNat)) = .data [0x80, 0x20, 0x00] ∧
    ([0x80, 0x20, 0x00] : List Byte).length ≤ 3 * (readsCode.reg .c).toNat ∧
    decodeStream readsCode.cfg [0x80, 0x20, 0x00] = .ok [.sys 0x20 none] :=
  ⟨by decide, by decide, by decide, rfl, by decide, rfl⟩

theorem test_witness_ReadCodeFaults :
    State.reset.cfg.syscallOf 0x02 = some .readCode ∧
    256 < ((withRegs { Regs.zero with b := 0xFF, c := 2 }).reg .b).toNat +
      ((withRegs { Regs.zero with b := 0xFF, c := 2 }).reg .c).toNat ∧
    (withRegs { Regs.zero with b := 1 }).progLen < ((withRegs { Regs.zero with b := 1 }).reg .b).toNat ∧
    ((State.reset.reg .b).toNat + (State.reset.reg .c).toNat ≤ 256 ∧ (State.reset.reg .b).toNat ≤ State.reset.progLen ∧
      (scripted [.err 5] State.reset).answer (.readFile 0 0) = .err 5) ∧
    ((scripted [.data [0x01]] readsCode).answer (.readFile 3 3) = .data [0x01] ∧ ([0x01] : List Byte).length % 3 ≠ 0) ∧
    decodeStream readsCode.cfg [0x03, 0x01, 0x2A] = .error (.opcode 0x03) :=
  ⟨by decide, by decide, by decide, ⟨by decide, by decide, rfl⟩, ⟨rfl, by decide⟩, rfl⟩

/-- A range that ends at the last cell. -/
def rangeTop (answer : HostResponse) : State := scripted [answer] (withRegs { Regs.zero with b := 0xFF, c := 1 })

theorem test_witness_ReadMemoryWritesReturnedBytes :
    State.reset.cfg.syscallOf 0x04 = some .readMemory ∧
    256 < ((withRegs { Regs.zero with b := 0xFF, c := 2 }).reg .b).toNat +
      ((withRegs { Regs.zero with b := 0xFF, c := 2 }).reg .c).toNat ∧
    ((rangeTop (.err 1)).reg .b).toNat + ((rangeTop (.err 1)).reg .c).toNat ≤ 256 ∧
    (rangeTop (.err 1)).answer (.readFile 0 1) = .err 1 ∧
    ((rangeTop (.data [7])).answer (.readFile 0 1) = .data [7] ∧ ([7] : List Byte).length ≤ 1) :=
  ⟨by decide, by decide, by decide, rfl, rfl, by decide⟩

theorem test_witness_WriteSendsDataMemory :
    State.reset.cfg.syscallOf 0x08 = some .write ∧
    256 < ((withRegs { Regs.zero with b := 0xFF, c := 2 }).reg .b).toNat +
      ((withRegs { Regs.zero with b := 0xFF, c := 2 }).reg .c).toNat ∧
    ((rangeTop (.err 1)).reg .b).toNat + ((rangeTop (.err 1)).reg .c).toNat ≤ 256 ∧
    (rangeTop (.err 1)).answer (.writeFile 0 [0]) = .err 1 ∧
    ((rangeTop (.wrote 1)).answer (.writeFile 0 [0]) = .wrote 1 ∧ 1 ≤ ([0] : List Byte).length) :=
  ⟨by decide, by decide, by decide, rfl, rfl, by decide⟩

theorem test_witness_SleepWritesZero :
    State.reset.cfg.syscallOf 0x10 = some .sleep ∧
    (scripted [.slept] State.reset).answer (.sleep ((scripted [.slept] State.reset).reg .a)) = .slept := ⟨by decide, rfl⟩

theorem test_witness_FreeAnswersKeepTheContract : State.reset.hostIn = [] := rfl

theorem test_witness_InvalidOperandExactlyOnNone :
    State.reset.outcome = .running ∧
    (∀ code r, Instr.sys 0x08 none = .sys code r → State.reset.cfg.syscallOf code ≠ none) ∧
    (Instr.sys 0x08 none).wellFormed State.reset.cfg = false := by
  refine ⟨by decide, fun code r h => ?_, by decide⟩
  cases h
  decide

theorem test_witness_OnlyTabledRegistersAreWritten : ∃ t, exec (.imm (some .a) 1) State.reset = .next t := ⟨_, rfl⟩

theorem test_witness_InstructionPointerChangesOnlyByThese :
    ∃ t, step { State.reset with prog := [nop] } = .next t ∧ t.reg .i ≠ State.reset.reg .i := ⟨_, rfl, by decide⟩

theorem test_witness_OnlyStmAndReadMemoryWriteMemory :
    (∃ t, exec (.ldm (some .a) (some .b)) State.reset = .next t) ∧ (Instr.ldm (some .a) (some .b)).opcode ≠ .stm ∧
    ∀ code r, Instr.ldm (some .a) (some .b) = .sys code r → State.reset.cfg.syscallOf code ≠ some .readMemory :=
  ⟨⟨_, rfl⟩, by decide, fun _ _ h => by cases h⟩

theorem test_witness_OnlyStkReachesTheStack :
    (Instr.imm (some .s) 0xFF).opcode ≠ .stk ∧ ∃ t, exec (.imm (some .s) 0xFF) State.reset = .next t :=
  ⟨by decide, _, rfl⟩

theorem test_witness_OnlyReadCodeWritesTheStore :
    (∃ t, exec (.stm (some .a) (some .b)) State.reset = .next t) ∧
    ∀ code r, Instr.stm (some .a) (some .b) = .sys code r → State.reset.cfg.syscallOf code ≠ some .readCode :=
  ⟨⟨_, rfl⟩, fun _ _ h => by cases h⟩

theorem test_witness_HaltOnlyByExit :
    ∃ t, step (State.reset.withFetchWord 24 0x802000) = .next t ∧ t.outcome = .halted 0 := ⟨_, rfl, by decide⟩

theorem test_witness_FaultsArePrecise :
    (∃ t, step State.reset = .next t ∧ t.outcome = .faulted (.programCounterOutOfRange 0)) ∧
    (∃ t, step (State.reset.withFetchWord 24 0x010000) = .next t ∧ t.outcome = .faulted (.invalidOperand .imm .arg1)) :=
  ⟨⟨_, rfl, by decide⟩, ⟨_, rfl, by decide⟩⟩

theorem test_witness_FaultOrderAroundTheHostRequest :
    State.reset.outcome = .running ∧
    (∃ t, exec (.sys 0x40 none) State.reset = .next t ∧ t.outcome = .faulted (.unsupportedSyscall 0x40)) ∧
    (∃ t, exec (.sys 0x01 (some .a)) (scripted [.err 2] State.reset) = .next t ∧
      t.outcome = .faulted (.hostIoError 2)) :=
  ⟨by decide, ⟨_, rfl, by decide⟩, ⟨_, rfl, by decide⟩⟩

theorem test_witness_AtMostOneRequestPerInstruction :
    (∃ t, exec (.sys 0x10 (some .a)) (scripted [.slept] State.reset) = .next t ∧ t.hostOut = [.sleep 0]) := ⟨_, rfl, by decide⟩

theorem test_witness_DescriptorsAreNeverClosed :
    (∃ t, exec (.sys 0x01 (some .a)) (scripted [.opened 3] State.reset) = .next t ∧ t.fdtable = [3]) ∧
    ∀ code r, Instr.sys 0x10 (some .a) = .sys code r → State.reset.cfg.syscallOf code ≠ some .openFile := by
  refine ⟨⟨_, rfl, by decide⟩, fun code r h => ?_⟩
  cases h
  decide

/-- The reset state meets the invariant. -/
theorem test_reset_inv : State.reset.Inv :=
  ⟨by decide, by decide, by decide, by constructor <;> intro h <;> revert h <;> decide⟩

theorem test_witness_StepKeepsInvariant : State.reset.Inv ∧ ∃ t, step State.reset = .next t := ⟨test_reset_inv, _, rfl⟩

theorem test_witness_EveryReachedStateKeepsPromises :
    State.reset.Inv ∧ ∃ t, Reaches State.reset t ∧ t ≠ State.reset := by
  refine ⟨test_reset_inv, _, .step .here rfl, by decide⟩

/-- A malformed configuration, for the last clause. -/
theorem test_witness_EveryReachedStateKeepsPromises_malformed :
    configValid { cfgEx with sys := [] } = false ∧ (State.construct { cfgEx with sys := [] } .checked []).Inv :=
  ⟨by decide, by decide, by decide, by decide, by constructor <;> intro <;> decide⟩

end Sys2Proof.Tests
end

section
/-! PROOFS. Range accesses to data memory (spec/20_memory.md R63 to R65): the bounds check decides between the fault and
the access, and a range write is a cell-by-cell overwrite. -/
namespace Sys2Proof.Machine

/-! ### Cells and ranges of data memory -/

@[simp] theorem State.putBytes_nil (s : State) (start : Nat) : s.putBytes start [] = s := rfl

/-- The bytes are put at absolute positions: nothing wraps around to the low addresses. -/
theorem State.memByte_putBytes (s : State) (start : Nat) (bytes : List Byte) (addr : Byte) :
    (s.putBytes start bytes).memByte addr =
      if start ≤ addr.toNat ∧ addr.toNat < start + bytes.length then bytes.getD (addr.toNat - start) 0
      else s.memByte addr :=
  Memory.read_writeMany bytes s.mem start addr.toNat

theorem State.memByte_putBytes_of_outside (s : State) (start : Nat) (bytes : List Byte) (addr : Byte)
    (h : addr.toNat < start ∨ start + bytes.length ≤ addr.toNat) :
    (s.putBytes start bytes).memByte addr = s.memByte addr := by
  rw [State.memByte_putBytes, if_neg (by omega)]

theorem State.getElem?_eq_memByte_putBytes (s : State) (start : Nat) (bytes : List Byte) {k : Nat}
    (hk : k < bytes.length) (hr : start + bytes.length ≤ 256) :
    bytes[k]? = some ((s.putBytes start bytes).memByte (BitVec.ofNat 8 (start + k))) := by
  have haddr : (BitVec.ofNat 8 (start + k)).toNat = start + k := by
    rw [BitVec.toNat_ofNat, Nat.mod_eq_of_lt (by omega)]
  rw [State.memByte_putBytes, haddr, if_pos (by omega), Nat.add_sub_cancel_left]
  simp [hk]

theorem putBytes_frame (s : State) (start : Nat) (bytes : List Byte) :
    SameRegs [] s (s.putBytes start bytes) ∧ SameStk s (s.putBytes start bytes) ∧
      SameRest s (s.putBytes start bytes) := by
  simp [SameRegs, SameStk, SameRest, SameInputs, SameHostPort]

/-! ### The check of a range write -/

theorem memWriteRange_of_le {s : State} {start : Nat} {bytes : List Byte} (h : start + bytes.length ≤ 256) :
    s.memWriteRange start bytes = .ok (s.putBytes start bytes) := by
  simp [State.memWriteRange, outOfRange, h]

theorem memWriteRange_of_lt {s : State} {start : Nat} {bytes : List Byte} (h : 256 < start + bytes.length) :
    s.memWriteRange start bytes = .error (.outOfBounds start bytes.length) := by
  simp [State.memWriteRange, outOfRange, h]

/-! ### The obligation -/

/-- Settles O27: the check decides each access, and `getElem?_eq_memByte_putBytes`, `memByte_putBytes_of_outside` and
`putBytes_frame` say what a write inside the array does. The empty range passes the check from every start byte. -/
theorem rangeAccessBounds : Obligations.RangeAccessBounds := by
  intro s start n bytes
  have hstart : start.toNat < 256 := start.isLt
  refine ⟨fun hout => ?readOut, fun hin => ?readIn, memWriteRange_of_lt, fun hin => ?writeIn, ?readEmpty, ?writeEmpty⟩
  case readOut => exact memReadRange_error_iff.mpr ⟨hout, rfl⟩
  case readIn =>
    refine ⟨Memory.readMany s.mem start.toNat n, memReadRange_ok_iff.mpr ⟨hin, rfl⟩, readMany_length _ _ _,
      fun k hk => ?_⟩
    rw [readMany_getElem? _ _ _ hk, State.memByte_ofNat s (by omega)]
  case writeIn =>
    exact ⟨s.putBytes start.toNat bytes, memWriteRange_of_le hin,
      fun k hk => s.getElem?_eq_memByte_putBytes start.toNat bytes hk hin,
      s.memByte_putBytes_of_outside start.toNat bytes, putBytes_frame s start.toNat bytes⟩
  case readEmpty => exact memReadRange_ok_iff.mpr ⟨by omega, rfl⟩
  case writeEmpty => rw [memWriteRange_of_le (by simpa using hstart.le), State.putBytes_nil]

end Sys2Proof.Machine
end

section
/-! PROOFS. Selection of the variant by the op byte (spec/30_encoding.md R93): once the lookup answers m, only m's
operands are left to decode, so the result is an m or a bad register byte. -/
namespace Sys2Proof.Machine

/-! ### The decoder once the op byte has been looked up -/

theorem decodeFields_of_opcodeOf_none {C : Constants} {op : Byte} (a1 a2 : Byte) (hop : C.opcodeOf op = none) :
    decodeFields C op a1 a2 = .error (.opcode op) := by
  rw [decodeFields, hop]

theorem opcode_of_decodeFields_ok {C : Constants} {op a1 a2 : Byte} {m : Opcode} {i : Instr}
    (hop : C.opcodeOf op = some m) (h : decodeFields C op a1 a2 = .ok i) : i.opcode = m := by
  rw [decodeFields, hop] at h
  cases m with
  | imm | jmp | sys =>
    obtain ⟨x, -, rfl⟩ := decodeOne_ok h
    rfl
  | add | stk | stm | ldm | cmp =>
    obtain ⟨x, y, -, -, rfl⟩ := decodeTwo_ok h
    rfl

theorem decodeReg_ne_opcode_error (C : Constants) (v w : Byte) : decodeReg C v ≠ .error (.opcode w) := by
  intro h
  obtain ⟨hregister, -, -⟩ := decodeReg_error h
  cases hregister

/-- A selected variant leaves only its operands to decode, and those are rejected as register bytes. -/
theorem decodeFields_ne_opcode_error {C : Constants} {op : Byte} {m : Opcode} (a1 a2 v : Byte)
    (hop : C.opcodeOf op = some m) : decodeFields C op a1 a2 ≠ .error (.opcode v) := by
  intro h
  rw [decodeFields, hop] at h
  cases m with
  | imm | jmp | sys => exact decodeReg_ne_opcode_error C _ v (decodeOne_error h)
  | add | stk | stm | ldm | cmp =>
    obtain harg1 | ⟨-, harg2⟩ := decodeTwo_error h
    · exact decodeReg_ne_opcode_error C a1 v harg1
    · exact decodeReg_ne_opcode_error C a2 v harg2

/-! ### The obligation -/

/-- Settles O4: everything turns on the answer of `opcodeOf`, which is none where no code equals the op byte
(`opcodeOf_none`) and m on m's own code when the codes are distinct (`opcodeOf_opCode`). -/
theorem opcodeByteSelectsVariant : Obligations.OpcodeByteSelectsVariant := by
  intro C op a1 a2
  refine ⟨fun hnone => decodeFields_of_opcodeOf_none a1 a2 (opcodeOf_none.mpr hnone), ?_⟩
  rintro hdistinct m rfl
  have hop : C.opcodeOf (C.opCode m) = some m := opcodeOf_opCode hdistinct m
  exact ⟨fun _ hcode => opCode_injective hdistinct hcode, fun _ hok => opcode_of_decodeFields_ok hop hok,
    decodeFields_ne_opcode_error a1 a2 _ hop⟩

end Sys2Proof.Machine
end

section
/-! PROOFS. IMM and ADD (spec/41_imm_add.md): each is one register write behind its operand checks, so what it leaves
unchanged is the frame of that write, and its faults are those of the checks. -/
namespace Sys2Proof.Machine

/-! ### The operand checks -/

theorem exists_faultedOnly_of_raise (k : FaultKind) (s : State) : ∃ t, raise k s = .next t ∧ FaultedOnly k s t :=
  ⟨s.latch (.faulted k), raise_next_iff.mpr rfl, faultedOnly_latch k s⟩

/-- None in arg1 faults on arg1, whatever stands in arg2 (R227). -/
@[simp] theorem requireTwo_none (op : Opcode) (y : Option Reg) (s : State) (k : Reg → Reg → Result) :
    requireTwo op none y s k = raise (.invalidOperand op .arg1) s := rfl

@[simp] theorem requireTwo_some_none (op : Opcode) (r : Reg) (s : State) (k : Reg → Reg → Result) :
    requireTwo op (some r) none s k = raise (.invalidOperand op .arg2) s := rfl

@[simp] theorem requireTwo_some_some (op : Opcode) (r q : Reg) (s : State) (k : Reg → Reg → Result) :
    requireTwo op (some r) (some q) s k = k r q := rfl

/-! ### The two instructions as a register write behind the checks -/

theorem exec_imm (x : Option Reg) (v : Byte) (s : State) :
    exec (.imm x v) s = requireReg .imm .arg1 x s fun r => .next (s.setReg r v) := rfl

theorem exec_add (x y : Option Reg) (s : State) :
    exec (.add x y) s = requireTwo .add x y s fun r q => .next (s.setReg r (s.reg r + s.reg q)) := rfl

/-! ### The obligations -/

/-- Settles O16: a destination register gets the immediate by one register write (`setReg_frame`), and None stops at the
operand check. -/
theorem immLoadsImmediate : Obligations.ImmLoadsImmediate := by
  intro s v
  refine ⟨fun r => ?completes, ?noneFaults, fun _ _ => ⟨rfl, rfl, rfl⟩⟩
  case completes =>
    exact ⟨s.setReg r v, by rw [exec_imm, requireReg_some], s.reg_setReg_self r v, setReg_frame s r v⟩
  case noneFaults =>
    rw [exec_imm, requireReg_none]
    exact exists_faultedOnly_of_raise _ s

/-- Settles O17: the sum of the two old bytes is written by one register write (`setReg_frame`), F being written only
where it is the first operand itself; None stops at the operand checks, arg1 first. -/
theorem addWrapsWithoutFlags : Obligations.AddWrapsWithoutFlags := by
  intro s
  refine ⟨fun x y => ?completes, fun y => ?arg1Faults, fun x => ?arg2Faults, fun _ _ _ => ⟨rfl, rfl, rfl⟩⟩
  case completes =>
    refine ⟨s.setReg x (s.reg x + s.reg y), by rw [exec_add, requireTwo_some_some], ?sum, setReg_frame s x _⟩
    rw [State.reg_setReg_self, BitVec.toNat_add]
  case arg1Faults =>
    rw [exec_add, requireTwo_none]
    exact exists_faultedOnly_of_raise _ s
  case arg2Faults =>
    rw [exec_add, requireTwo_some_none]
    exact exists_faultedOnly_of_raise _ s

end Sys2Proof.Machine
end

section
/-! PROOFS. Push, Pop and STK (spec/42_stk.md R160 to R164). Each half gets its rules once, about a push or a pop that
completes: the cells it writes, the pointer, and its frame. -/
namespace Sys2Proof.Machine

/-! ### The bound -/

/-- The bound stops a half only where both parts of its condition hold (D12). -/
theorem not_checked_and_eq {p : StackPolicy} {v bound : Byte} (h : p = .wrap ∨ v ≠ bound) :
    ¬(p = .checked ∧ v = bound) := by
  rintro ⟨hchecked, hbound⟩
  obtain hwrap | hne := h
  · cases hchecked.symm.trans hwrap
  · exact hne hbound

theorem exists_push_ok {s : State} (v : Byte) (h : s.policy = .wrap ∨ s.reg .s ≠ 0xFF) : ∃ t, s.push v = .ok t :=
  ⟨_, push_ok_iff.mpr ⟨not_checked_and_eq h, rfl⟩⟩

theorem exists_pop_ok {s : State} (rd : Reg) (h : s.policy = .wrap ∨ s.reg .s ≠ 0x00) : ∃ t, s.pop rd = .ok t :=
  ⟨_, pop_ok_iff.mpr ⟨not_checked_and_eq h, rfl⟩⟩

/-! ### A push that completes -/

theorem reg_s_of_push {s t : State} {v : Byte} (h : s.push v = .ok t) : t.reg .s = s.reg .s + 1 := by
  obtain ⟨-, rfl⟩ := push_ok_iff.mp h
  rw [State.reg_setReg_self]

theorem stkByte_of_push {s t : State} {v : Byte} (h : s.push v = .ok t) (idx : Byte) :
    t.stkByte idx = if idx = s.reg .s then v else s.stkByte idx := by
  obtain ⟨-, rfl⟩ := push_ok_iff.mp h
  rw [State.setReg_stkByte, State.stkByte_setStkByte]

theorem reg_s_ne_of_push {s t : State} {v : Byte} (h : s.push v = .ok t) (hp : s.policy = .checked) :
    s.reg .s ≠ 0xFF := by
  obtain ⟨hbound, -⟩ := push_ok_iff.mp h
  exact fun hs => hbound ⟨hp, hs⟩

theorem push_frame {s t : State} {v : Byte} (h : s.push v = .ok t) :
    SameRegs [.s] s t ∧ SameMem s t ∧ SameRest s t := by
  obtain ⟨-, rfl⟩ := push_ok_iff.mp h
  obtain ⟨hregs, hmem, -, hrest⟩ := setReg_frame (s.setStkByte (s.reg .s) v) .s (s.reg .s + 1)
  exact ⟨hregs, hmem, hrest⟩

/-! ### A pop that completes -/

theorem reg_dst_of_pop {s t : State} {rd : Reg} (h : s.pop rd = .ok t) : t.reg rd = s.stkByte (s.reg .s - 1) := by
  obtain ⟨-, rfl⟩ := pop_ok_iff.mp h
  rw [State.reg_setReg_self]

/-- The destination is written last, so only a destination S hides the decremented pointer (R162). -/
theorem reg_s_of_pop {s t : State} {rd : Reg} (h : s.pop rd = .ok t) (hrd : rd ≠ .s) : t.reg .s = s.reg .s - 1 := by
  obtain ⟨-, rfl⟩ := pop_ok_iff.mp h
  rw [State.reg_setReg_of_ne _ hrd.symm, State.reg_setReg_self]

theorem pop_frame {s t : State} {rd : Reg} (h : s.pop rd = .ok t) :
    SameRegs [rd, .s] s t ∧ SameMem s t ∧ SameStk s t ∧ SameRest s t := by
  obtain ⟨-, rfl⟩ := pop_ok_iff.mp h
  obtain ⟨-, hmem, hstk, hrest⟩ := setReg_frame (s.setReg .s (s.reg .s - 1)) rd (s.stkByte (s.reg .s - 1))
  refine ⟨fun r hr => ?_, hmem, hstk, hrest⟩
  obtain ⟨hrd, hs⟩ : r ≠ rd ∧ r ≠ .s := by simpa using hr
  rw [State.reg_setReg_of_ne _ hrd, State.reg_setReg_of_ne _ hs]

/-! ### STK as its halves -/

theorem exec_stk (x y : Option Reg) (s : State) : exec (.stk x y) s = execStk x y s := rfl

theorem exec_stk_of_push {s t : State} {r : Reg} (h : s.push (s.reg r) = .ok t) :
    exec (.stk none (some r)) s = .next t := by
  obtain ⟨hbound, rfl⟩ := push_ok_iff.mp h
  rw [exec_stk, execStk_push r s hbound]

theorem exec_stk_of_pop {s t : State} {rd : Reg} (h : s.pop rd = .ok t) :
    exec (.stk (some rd) none) s = .next t := by
  obtain ⟨hbound, rfl⟩ := pop_ok_iff.mp h
  rw [exec_stk, execStk_pop rd s hbound]

/-- STK with both halves moves a register: the pushed byte is popped again and the pointer comes back (R164). -/
theorem exists_exec_stk_move {s : State} {rd r : Reg} (hrd : rd ≠ .s) (h : s.policy = .wrap ∨ s.reg .s ≠ 0xFF) :
    ∃ t, exec (.stk (some rd) (some r)) s = .next t ∧ t.reg rd = s.reg r ∧ t.reg .s = s.reg .s := by
  rw [exec_stk, execStk_move rd r s (not_checked_and_eq h)]
  refine ⟨_, rfl, State.reg_setReg_self _ rd _, ?_⟩
  rw [State.reg_setReg_of_ne _ hrd.symm, State.reg_setReg_self]

/-! ### The obligations -/

/-- Settles O18: the overflow is `push_error_iff`'s one case, and `stkByte_of_push` says what becomes of each cell; the
checked policy lets no push reach the cell 0xFF (`reg_s_ne_of_push`). -/
theorem pushRule : Obligations.PushRule := by
  intro s v
  refine ⟨fun hp hs => push_error_iff.mpr ⟨hp, hs, rfl⟩, fun hbound => ?_⟩
  obtain ⟨t, hpush⟩ := exists_push_ok v hbound
  refine ⟨t, hpush, ?pointer, ?written, fun idx hidx => ?others, fun hp => ?lastCell, push_frame hpush⟩
  case pointer => rw [reg_s_of_push hpush, BitVec.toNat_add]; rfl
  case written => rw [stkByte_of_push hpush, if_pos rfl]
  case others => rw [stkByte_of_push hpush, if_neg hidx]
  case lastCell => rw [stkByte_of_push hpush, if_neg (reg_s_ne_of_push hpush hp).symm]

/-- Settles O19: the underflow is `pop_error_iff`'s one case, and a pop that completes is two register writes
(`reg_dst_of_pop`, `reg_s_of_pop`, `pop_frame`). -/
theorem popRule : Obligations.PopRule := by
  intro s rd
  refine ⟨fun hp hs => pop_error_iff.mpr ⟨hp, hs, rfl⟩, fun hbound => ?_⟩
  obtain ⟨t, hpop⟩ := exists_pop_ok rd hbound
  refine ⟨t, hpop, reg_dst_of_pop hpop, fun hrd => ?pointer, pop_frame hpop⟩
  case pointer => rw [reg_s_of_pop hpop hrd, BitVec.toNat_sub, Nat.add_comm]; rfl

/-- Settles O23: away from both bounds each half completes under either policy; the three properties are the rules of
the move, the push and the pop. -/
theorem stkTestableProperties : Obligations.StkTestableProperties := by
  intro s hfull hempty
  refine ⟨fun hc => ?move, fun x => ?push, fun rd hrd => ?pop⟩
  case move =>
    obtain ⟨t, hexec, hb, hs⟩ := exists_exec_stk_move (rd := .b) (r := .c) (by decide) (.inr hfull)
    exact ⟨t, hexec, hb.trans hc, hs⟩
  case push =>
    obtain ⟨t, hpush⟩ := exists_push_ok (s.reg x) (.inr hfull)
    exact ⟨t, exec_stk_of_push hpush, reg_s_of_push hpush, by rw [stkByte_of_push hpush, if_pos rfl]⟩
  case pop =>
    obtain ⟨t, hpop⟩ := exists_pop_ok rd (.inr hempty)
    exact ⟨t, exec_stk_of_pop hpop, reg_s_of_pop hpop hrd, reg_dst_of_pop hpop⟩

end Sys2Proof.Machine
end

section
/-! PROOFS. STM and LDM (spec/43_stm_ldm.md R170, R171): behind the operand checks STM is one write of the cell at
x[p] and LDM one register write of the byte read there. Since every byte is an address (R62), neither has a bounds
case. -/
namespace Sys2Proof.Machine

/-! ### A data memory cell after a write, and at construction -/

@[simp] theorem State.memByte_setMemByte_self (s : State) (addr v : Byte) : (s.setMemByte addr v).memByte addr = v := by
  rw [State.memByte_setMemByte, if_pos rfl]

theorem State.memByte_setMemByte_of_ne (s : State) {addr other : Byte} (h : other ≠ addr) (v : Byte) :
    (s.setMemByte addr v).memByte other = s.memByte other := by
  rw [State.memByte_setMemByte, if_neg h]

theorem setMemByte_frame (s : State) (addr v : Byte) :
    SameRegs [] s (s.setMemByte addr v) ∧ SameStk s (s.setMemByte addr v) ∧ SameRest s (s.setMemByte addr v) := by
  simp [SameRegs, SameStk, SameRest, SameInputs, SameHostPort]

/-- Construction lists no cell, and an unlisted cell holds the reset value (R38). -/
@[simp] theorem State.construct_memByte (C : Constants) (p : StackPolicy) (prog : List Instr) (addr : Byte) :
    (State.construct C p prog).memByte addr = 0 :=
  Memory.read_nil addr.toNat

/-! ### The faults of an instruction with two required registers -/

theorem exists_faultedOnly_of_requireTwo_none (op : Opcode) (y : Option Reg) (s : State) (k : Reg → Reg → Result) :
    ∃ t, requireTwo op none y s k = .next t ∧ FaultedOnly (.invalidOperand op .arg1) s t := by
  rw [requireTwo_none]
  exact exists_faultedOnly_of_raise _ s

theorem exists_faultedOnly_of_requireTwo_some_none (op : Opcode) (r : Reg) (s : State) (k : Reg → Reg → Result) :
    ∃ t, requireTwo op (some r) none s k = .next t ∧ FaultedOnly (.invalidOperand op .arg2) s t := by
  rw [requireTwo_some_none]
  exact exists_faultedOnly_of_raise _ s

/-! ### The two instructions behind the checks -/

theorem exec_stm (x y : Option Reg) (s : State) :
    exec (.stm x y) s = requireTwo .stm x y s fun p v => .next (s.setMemByte (s.reg p) (s.reg v)) := rfl

theorem exec_ldm (x y : Option Reg) (s : State) :
    exec (.ldm x y) s = requireTwo .ldm x y s fun rd p => .next (s.setReg rd (s.memByte (s.reg p))) := rfl

/-! ### The obligations -/

/-- Settles O24: STM is one cell write, which the two cases of `memByte_setMemByte` and `setMemByte_frame` describe; None
stops at the operand checks, arg1 first. -/
theorem stmStoresOneByte : Obligations.StmStoresOneByte := by
  intro s
  refine ⟨fun p v => ?completes, fun y => ?arg1Faults, fun x => ?arg2Faults, fun _ _ _ => ⟨rfl, rfl, rfl⟩⟩
  case completes =>
    exact ⟨s.setMemByte (s.reg p) (s.reg v), by rw [exec_stm, requireTwo_some_some],
      s.memByte_setMemByte_self _ _, fun _ hother => s.memByte_setMemByte_of_ne hother _, setMemByte_frame s _ _⟩
  case arg1Faults =>
    rw [exec_stm]
    exact exists_faultedOnly_of_requireTwo_none .stm y s _
  case arg2Faults =>
    rw [exec_stm]
    exact exists_faultedOnly_of_requireTwo_some_none .stm x s _

/-- Settles O25: LDM is one register write of a byte read in the old state, so the address is still the old one where
destination and address register are the same; what it leaves unchanged is `setReg_frame`. -/
theorem ldmLoadsOneByte : Obligations.LdmLoadsOneByte := by
  intro s
  refine ⟨fun rd p => ?completes, fun y => ?arg1Faults, fun x => ?arg2Faults, State.construct_memByte,
    fun _ _ _ => ⟨rfl, rfl, rfl⟩⟩
  case completes =>
    exact ⟨s.setReg rd (s.memByte (s.reg p)), by rw [exec_ldm, requireTwo_some_some], s.reg_setReg_self rd _,
      setReg_frame s rd _⟩
  case arg1Faults =>
    rw [exec_ldm]
    exact exists_faultedOnly_of_requireTwo_none .ldm y s _
  case arg2Faults =>
    rw [exec_ldm]
    exact exists_faultedOnly_of_requireTwo_some_none .ldm x s _

end Sys2Proof.Machine
end

section
/-! PROOFS. CMP and JMP (spec/44_cmp_jmp.md R180 to R182): the three outcomes of an unsigned comparison select the terms
of the new F, and JMP turns on F under the mask. Behind the operand checks each is at most one register write. -/
namespace Sys2Proof.Machine

/-! ### The flag computation, by the outcome of the comparison -/

theorem bitsIf_of_pos {p : Prop} [Decidable p] (hp : p) (v : Byte) : bitsIf p v = v := if_pos hp

theorem bitsIf_of_neg {p : Prop} [Decidable p] (hp : ¬p) (v : Byte) : bitsIf p v = 0 := if_neg hp

theorem not_both_zero_of_ne {va vb : Byte} (h : va ≠ vb) : ¬(va = 0 ∧ vb = 0) :=
  fun ⟨ha, hb⟩ => h (ha.trans hb.symm)

theorem cmpFlags_of_lt (C : Constants) {va vb : Byte} (h : va < vb) :
    cmpFlags C va vb = C.flagBit .l ||| C.flagBit .n := by
  have hne : va ≠ vb := BitVec.ne_of_lt h
  rw [cmpFlags, bitsIf_of_pos h, bitsIf_of_neg (BitVec.lt_asymm h), bitsIf_of_neg hne,
    bitsIf_of_neg (not_both_zero_of_ne hne)]
  simp

theorem cmpFlags_of_gt (C : Constants) {va vb : Byte} (h : vb < va) :
    cmpFlags C va vb = C.flagBit .g ||| C.flagBit .n := by
  have hne : va ≠ vb := (BitVec.ne_of_lt h).symm
  rw [cmpFlags, bitsIf_of_neg (BitVec.lt_asymm h), bitsIf_of_pos h, bitsIf_of_neg hne,
    bitsIf_of_neg (not_both_zero_of_ne hne)]
  simp

/-- On equal bytes only the terms of E and Z are left. -/
theorem cmpFlags_self (C : Constants) (v : Byte) :
    cmpFlags C v v = C.flagBit .e ||| bitsIf (v = 0 ∧ v = 0) (C.flagBit .z) := by
  have hirrefl : ¬v < v := BitVec.lt_irrefl v
  rw [cmpFlags, bitsIf_of_neg hirrefl, bitsIf_of_neg hirrefl, bitsIf_of_pos rfl]
  simp

theorem cmpFlags_self_of_ne_zero (C : Constants) {v : Byte} (h : v ≠ 0) : cmpFlags C v v = C.flagBit .e := by
  rw [cmpFlags_self, bitsIf_of_neg fun ⟨hv, _⟩ => h hv]
  simp

theorem cmpFlags_zero_zero (C : Constants) : cmpFlags C 0 0 = C.flagBit .e ||| C.flagBit .z := by
  rw [cmpFlags_self, bitsIf_of_pos ⟨rfl, rfl⟩]

/-! ### The condition of JMP -/

@[simp] theorem jumpTaken_iff {f mask : Byte} : jumpTaken f mask = true ↔ f &&& mask ≠ 0 := bne_iff_ne

/-! ### The two instructions behind the checks -/

theorem exec_cmp (x y : Option Reg) (s : State) :
    exec (.cmp x y) s = requireTwo .cmp x y s fun p q => .next (s.setReg .f (cmpFlags s.cfg (s.reg p) (s.reg q))) := rfl

theorem exec_jmp (mask : Byte) (x : Option Reg) (s : State) :
    exec (.jmp mask x) s = requireReg .jmp .arg2 x s fun r =>
      if jumpTaken (s.reg .f) mask then .next (s.setReg .i (s.reg r)) else .next s := rfl

theorem exec_jmp_of_taken {s : State} {mask : Byte} (r : Reg) (h : s.reg .f &&& mask ≠ 0) :
    exec (.jmp mask (some r)) s = .next (s.setReg .i (s.reg r)) := by
  rw [exec_jmp, requireReg_some, if_pos (jumpTaken_iff.mpr h)]

theorem exec_jmp_of_not_taken {s : State} {mask : Byte} (r : Reg) (h : s.reg .f &&& mask = 0) :
    exec (.jmp mask (some r)) s = .next s := by
  rw [exec_jmp, requireReg_some, if_neg fun htaken => jumpTaken_iff.mp htaken h]

/-! ### The obligations -/

/-- Settles O29: CMP is one write of F, whose new value `cmpFlags` takes from the two compared bytes alone, one rule per
outcome; what it leaves unchanged is `setReg_frame`, and None stops at the operand checks, arg1 first. -/
theorem cmpRecomputesFlags : Obligations.CmpRecomputesFlags := by
  intro s
  refine ⟨fun x y => ?completes, fun y => ?arg1Faults, fun x => ?arg2Faults, fun _ _ _ => ⟨rfl, rfl, rfl⟩⟩
  case completes =>
    refine ⟨s.setReg .f (cmpFlags s.cfg (s.reg x) (s.reg y)), by rw [exec_cmp, requireTwo_some_some], ?_⟩
    rw [State.reg_setReg_self]
    refine ⟨cmpFlags_of_lt s.cfg, cmpFlags_of_gt s.cfg, fun heq hnonzero => ?equal, fun hx hy => ?bothZero,
      setReg_frame s .f _⟩
    case equal => rw [← heq, cmpFlags_self_of_ne_zero s.cfg hnonzero]
    case bothZero => rw [hx, hy, cmpFlags_zero_zero]
  case arg1Faults =>
    rw [exec_cmp]
    exact exists_faultedOnly_of_requireTwo_none .cmp y s _
  case arg2Faults =>
    rw [exec_cmp]
    exact exists_faultedOnly_of_requireTwo_some_none .cmp x s _

/-- Settles O32: the two outcomes of the test are `exec_jmp_of_taken`, one write of I, and `exec_jmp_of_not_taken`; a
zero mask always ends in the second. None stops at the operand check, before the test. -/
theorem jmpTestsFlagsAndMask : Obligations.JmpTestsFlagsAndMask := by
  intro s mask
  refine ⟨fun r htaken => ?taken, fun r => exec_jmp_of_not_taken r, fun r => ?zeroMask, ?noneFaults,
    fun _ _ => ⟨rfl, rfl, rfl⟩⟩
  case taken =>
    exact ⟨s.setReg .i (s.reg r), exec_jmp_of_taken r htaken, s.reg_setReg_self .i _, setReg_frame s .i _⟩
  case zeroMask => exact exec_jmp_of_not_taken r BitVec.and_zero
  case noneFaults =>
    rw [exec_jmp, requireReg_none]
    exact exists_faultedOnly_of_raise _ s

/-- Settles O30: each row is one outcome of the comparison, evaluated on CFG-EX's flag bits. -/
theorem cmpOutcomeTable : Obligations.CmpOutcomeTable :=
  ⟨(cmpFlags_of_lt cfgEx (by decide)).trans (by decide), (cmpFlags_of_gt cfgEx (by decide)).trans (by decide),
    (cmpFlags_self_of_ne_zero cfgEx (by decide)).trans (by decide), (cmpFlags_zero_zero cfgEx).trans (by decide),
    (cmpFlags_of_lt cfgEx (by decide)).trans (by decide)⟩

end Sys2Proof.Machine
end

section
/-! PROOFS. The dispatch of SYS (spec/45_sys.md R194, R196): a valid syscall map gives each name a code of its own, so
the lookup of a code undoes the map; the lookup's answer decides before the result operand is looked at. -/
namespace Sys2Proof.Machine

/-! ### The syscall map -/

theorem mem_of_sysCode {C : Constants} {n : Syscall} {v : Byte} (h : C.sysCode n = some v) :
    (.known n, v) ∈ C.sys := by
  obtain ⟨l, r, hsys, -⟩ := List.lookup_eq_some_iff.mp h
  simp [hsys]

theorem sysCode_injective {C : Constants} (hvalid : sysValid C = true) {m n : Syscall} {v : Byte}
    (hm : C.sysCode m = some v) (hn : C.sysCode n = some v) : m = n := by
  simp only [sysValid, Bool.and_eq_true, distinct, decide_eq_true_eq] at hvalid
  obtain ⟨-, hdistinct⟩ := hvalid
  have hentry : (SysKey.known m, v) = (SysKey.known n, v) :=
    List.inj_on_of_nodup_map hdistinct (mem_of_sysCode hm) (mem_of_sysCode hn) rfl
  simpa using hentry

theorem syscallOf_eq_some_iff {C : Constants} (hvalid : sysValid C = true) {v : Byte} {n : Syscall} :
    C.syscallOf v = some n ↔ C.sysCode n = some v := by
  refine ⟨syscallOf_some, fun hcode => ?_⟩
  cases hlookup : C.syscallOf v with
  | none => exact absurd hcode (syscallOf_none.mp hlookup n)
  | some m => rw [sysCode_injective hvalid (syscallOf_some hlookup) hcode]

/-! ### The instruction once the code has been looked up -/

theorem exec_sys (code : Byte) (x : Option Reg) (s : State) : exec (.sys code x) s = execSys code x s := rfl

theorem exec_sys_of_syscallOf_none {s : State} {code : Byte} (x : Option Reg) (h : s.cfg.syscallOf code = none) :
    exec (.sys code x) s = raise (.unsupportedSyscall code) s := by
  simp only [exec_sys, execSys, h]

theorem exec_sys_readMemory {s : State} {code : Byte} (r : Reg) (h : s.cfg.syscallOf code = some .readMemory) :
    exec (.sys code (some r)) s = finishSys r (doReadMemory (s.reg .a) (s.reg .b) (s.reg .c) s) := by
  simp only [exec_sys, execSys, h, requireReg_some]

theorem exec_sys_write {s : State} {code : Byte} (r : Reg) (h : s.cfg.syscallOf code = some .write) :
    exec (.sys code (some r)) s = finishSys r (doWrite (s.reg .a) (s.reg .b) (s.reg .c) s) := by
  simp only [exec_sys, execSys, h, requireReg_some]

/-! ### The obligation -/

/-- Settles O33: a code that no name has is found by no lookup (`syscallOf_none`), and that fault is raised before the
result operand is looked at; under a valid map the lookup finds exactly the name of the code
(`syscallOf_eq_some_iff`). -/
theorem syscallDispatchIsExact : Obligations.SyscallDispatchIsExact := by
  intro s code r
  refine ⟨fun hunsupported => ?faults, fun hvalid n => syscallOf_eq_some_iff hvalid⟩
  rw [exec_sys_of_syscallOf_none r (syscallOf_none.mpr hunsupported)]
  exact exists_faultedOnly_of_raise _ s

end Sys2Proof.Machine
end

section
/-! PROOFS. The path scan of OPEN (spec/45_sys.md R199): its window is the cells from the pointer to 0xFF, and it turns
on whether one of them is 0x00. -/
namespace Sys2Proof.Machine

/-! ### The scan over its window -/

theorem readCString_of_terminator {s : State} {a : Byte} {n : Nat} (hn : a.toNat + n ≤ 255)
    (hzero : Memory.read s.mem (a.toNat + n) = 0) (hpath : ∀ k, k < n → Memory.read s.mem (a.toNat + k) ≠ 0) :
    s.readCString a = .ok (Memory.readMany s.mem a.toNat n) := by
  have hwindow : n < 256 - a.toNat := by omega
  rw [State.readCString, scan_some s.mem n _ a.toNat hwindow hzero hpath]

theorem readCString_of_no_terminator {s : State} {a : Byte}
    (h : ∀ k, k < 256 - a.toNat → Memory.read s.mem (a.toNat + k) ≠ 0) :
    s.readCString a = .error (.outOfBounds a.toNat (256 - a.toNat)) := by
  rw [State.readCString, scan_none s.mem _ a.toNat h]

/-! ### The obligation -/

/-- Settles O36: up to 0xFF the address `a + k` as a byte is the cell `a + k` itself (`memByte_ofNat`), so the cells of
the statement are those of the scan's window. -/
theorem pathScanStopsAtTerminator : Obligations.PathScanStopsAtTerminator := by
  intro s a
  have hcell : ∀ k, a.toNat + k ≤ 255 →
      s.memByte (BitVec.ofNat 8 (a.toNat + k)) = Memory.read s.mem (a.toNat + k) :=
    fun k hk => s.memByte_ofNat (by omega)
  refine ⟨fun n hn hzero hpath => ?terminated, fun hnone => ?unterminated⟩
  case terminated =>
    rw [hcell n hn] at hzero
    refine ⟨Memory.readMany s.mem a.toNat n,
      readCString_of_terminator hn hzero fun k hk => ?nonzero, readMany_length _ _ _, fun k hk => ?bytes⟩
    case nonzero => exact hcell k (by omega) ▸ hpath k hk
    case bytes => rw [readMany_getElem? _ _ _ hk, hcell k (by omega)]
  case unterminated =>
    refine readCString_of_no_terminator fun k hk => ?_
    have hin : a.toNat + k ≤ 255 := by omega
    exact hcell k hin ▸ hnone k hin

end Sys2Proof.Machine
end

section
/-! PROOFS. READ_MEMORY and WRITE (spec/45_sys.md R201, R202): the range check comes before the one request, and the
host's answer to that request decides between its error and the result byte, which is written last (R193). -/
namespace Sys2Proof.Machine

/-! ### The end of a syscall -/

@[simp] theorem finishSys_returns (r : Reg) (v : Byte) (s : State) :
    finishSys r (.returns v s) = .next (s.setReg r v) := rfl

@[simp] theorem finishSys_raises (r : Reg) (k : FaultKind) (s : State) : finishSys r (.raises k s) = raise k s := rfl

theorem faultedAfter_latch_afterRequest (req : HostRequest) (k : FaultKind) (s : State) :
    FaultedAfter req k s ((s.afterRequest req).latch (.faulted k)) :=
  ⟨rfl, fun _ _ => rfl, fun _ => rfl, fun _ => rfl, rfl, ⟨rfl, rfl⟩, asked_afterRequest req s⟩

theorem exists_faultedAfter_of_raise (req : HostRequest) (k : FaultKind) (s : State) :
    ∃ t, raise k (s.afterRequest req) = .next t ∧ t.fdtable = s.fdtable ∧ FaultedAfter req k s t :=
  ⟨(s.afterRequest req).latch (.faulted k), raise_next_iff.mpr rfl, rfl, faultedAfter_latch_afterRequest req k s⟩

theorem toNat_setReg_ofNat (s : State) (r : Reg) {n : Nat} (h : n < 256) :
    ((s.setReg r (BitVec.ofNat 8 n)).reg r).toNat = n := by
  rw [State.reg_setReg_self, BitVec.toNat_ofNat, Nat.mod_eq_of_lt h]

/-! ### READ_MEMORY -/

theorem doReadMemory_of_out_of_range {fd start count : Byte} {s : State} (h : 256 < start.toNat + count.toNat) :
    doReadMemory fd start count s = .raises (.outOfBounds start.toNat count.toNat) s := by
  simp [doReadMemory, outOfRange, h]

theorem doReadMemory_of_err {fd start count : Byte} {s : State} {e : HostError}
    (hrange : start.toNat + count.toNat ≤ 256) (hanswer : s.answer (.readFile fd count.toNat) = .err e) :
    doReadMemory fd start count s = .raises (.hostIoError e) (s.afterRequest (.readFile fd count.toNat)) := by
  simp [doReadMemory, outOfRange, hrange, hanswer, notOk]

/-- The check of the range write never fails: the bytes are at most `count`, whose range was checked first. -/
theorem doReadMemory_of_data {fd start count : Byte} {s : State} {bytes : List Byte}
    (hrange : start.toNat + count.toNat ≤ 256) (hanswer : s.answer (.readFile fd count.toNat) = .data bytes)
    (hlen : bytes.length ≤ count.toNat) :
    doReadMemory fd start count s = .returns (BitVec.ofNat 8 bytes.length)
      ((s.afterRequest (.readFile fd count.toNat)).putBytes start.toNat bytes) := by
  have hfits : start.toNat + bytes.length ≤ 256 := by omega
  simp [doReadMemory, outOfRange, Nat.not_lt.mpr hrange, hanswer, Nat.not_lt.mpr hlen, memWriteRange_of_le hfits]

/-- Settles O41: each clause is one rule of READ_MEMORY; where bytes are answered, their range write gives the cells
(`getElem?_eq_memByte_putBytes`, `memByte_putBytes_of_outside`) and the rest is the frame of the result's write
(`setReg_frame`). -/
theorem readMemoryWritesReturnedBytes : Obligations.ReadMemoryWritesReturnedBytes := by
  intro s code r hcode
  rw [exec_sys_readMemory r hcode]
  refine ⟨fun hout => ?outOfRange, fun hrange =>
    ⟨fun e hanswer => ?hostError, fun bytes hanswer hlen => ?returnsBytes⟩⟩
  case outOfRange =>
    rw [doReadMemory_of_out_of_range hout, finishSys_raises]
    exact exists_faultedOnly_of_raise _ s
  case hostError =>
    rw [doReadMemory_of_err hrange hanswer, finishSys_raises]
    exact exists_faultedAfter_of_raise _ _ s
  case returnsBytes =>
    rw [doReadMemory_of_data hrange hanswer hlen, finishSys_returns]
    obtain ⟨hregs, -, hstk, -⟩ := setReg_frame
      ((s.afterRequest (.readFile (s.reg .a) (s.reg .c).toNat)).putBytes (s.reg .b).toNat bytes) r
      (BitVec.ofNat 8 bytes.length)
    refine ⟨_, rfl, toNat_setReg_ofNat _ r (by omega), fun k hk => ?written, fun addr hout => ?untouched,
      hregs, hstk, rfl, rfl, ⟨rfl, rfl⟩, rfl, asked_afterRequest _ s⟩
    case written =>
      rw [State.setReg_memByte]
      exact State.getElem?_eq_memByte_putBytes _ _ bytes hk (by omega)
    case untouched =>
      rw [State.setReg_memByte, State.memByte_putBytes_of_outside _ _ bytes addr hout, State.afterRequest_memByte]

/-! ### WRITE -/

theorem doWrite_of_out_of_range {fd start size : Byte} {s : State} (h : 256 < start.toNat + size.toNat) :
    doWrite fd start size s = .raises (.outOfBounds start.toNat size.toNat) s := by
  simp only [doWrite, memReadRange_error_iff.mpr ⟨h, rfl⟩]

theorem doWrite_of_err {fd start size : Byte} {s : State} {data : List Byte} {e : HostError}
    (hread : s.memReadRange start.toNat size.toNat = .ok data) (hanswer : s.answer (.writeFile fd data) = .err e) :
    doWrite fd start size s = .raises (.hostIoError e) (s.afterRequest (.writeFile fd data)) := by
  simp only [doWrite, hread, hanswer, notOk]

theorem doWrite_of_wrote {fd start size : Byte} {s : State} {data : List Byte} {n : Nat}
    (hread : s.memReadRange start.toNat size.toNat = .ok data) (hanswer : s.answer (.writeFile fd data) = .wrote n)
    (hn : n ≤ data.length) :
    doWrite fd start size s = .returns (BitVec.ofNat 8 n) (s.afterRequest (.writeFile fd data)) := by
  simp only [doWrite, hread, hanswer, if_neg (Nat.not_lt.mpr hn)]

/-- Settles O42: inside the array the range read gives the data of the one request, whose answer decides; a short count
is the result like any other, with no second request. -/
theorem writeSendsDataMemory : Obligations.WriteSendsDataMemory := by
  intro s code r hcode
  rw [exec_sys_write r hcode]
  refine ⟨fun hout => ?outOfRange, fun hrange => ?inRange⟩
  case outOfRange =>
    rw [doWrite_of_out_of_range hout, finishSys_raises]
    exact exists_faultedOnly_of_raise _ s
  case inRange =>
    have hread := memReadRange_ok_iff (s := s).mpr ⟨hrange, rfl⟩
    have hlength := readMany_length s.mem (s.reg .b).toNat (s.reg .c).toNat
    refine ⟨Memory.readMany s.mem (s.reg .b).toNat (s.reg .c).toNat, hlength, fun k hk => ?data,
      fun e hanswer => ?hostError, fun n hanswer hn => ?returnsCount⟩
    case data =>
      rw [readMany_getElem? _ _ _ (by omega), State.memByte_ofNat s (by omega)]
    case hostError =>
      rw [doWrite_of_err hread hanswer, finishSys_raises]
      exact exists_faultedAfter_of_raise _ _ s
    case returnsCount =>
      rw [doWrite_of_wrote hread hanswer hn, finishSys_returns]
      obtain ⟨hregs, hmem, hstk, -⟩ := setReg_frame (s.afterRequest _) r (BitVec.ofNat 8 n)
      exact ⟨_, rfl, toNat_setReg_ofNat _ r (by omega), hregs, hmem, hstk, rfl, rfl, ⟨rfl, rfl⟩, rfl,
        asked_afterRequest _ s⟩

end Sys2Proof.Machine
end

section
/-! PROOFS. The latch and the exceptions (spec/60_exceptions.md R222, R224, R225): an instruction's effect on the latch
is read off `ExecNext` once, as `LatchNext`; each statement is then about the cases that its own latch leaves. -/
namespace Sys2Proof.Machine

/-! ### What an instruction does to the latch -/

/-- The faults of R221 that no instruction but SYS raises: an unsupported code and the syscalls' own (R194). -/
def FaultKind.ofSyscall : FaultKind → Bool
  | .outOfBounds _ _ => true
  | .unsupportedSyscall _ => true
  | .fileDescriptorOverflow _ => true
  | .hostIoError _ => true
  | .decodeError _ => true
  | _ => false

/-- Every latch in which an instruction that ends in a next state leaves the block, and what brings it about. -/
inductive LatchNext (s : State) (i : Instr) : Latch → Prop where
  | kept (o : Latch) (h : o = s.outcome) : LatchNext s i o
  | noneOperand (pos : OperandPos) (hwf : i.wellFormed s.cfg = false) :
      LatchNext s i (.faulted (.invalidOperand i.opcode pos))
  | stackFault (k : FaultKind) (hop : i.opcode = .stk) (hp : s.policy = .checked)
      (hk : k = .stackOverflow 0xFF ∨ k = .stackUnderflow 0x00) : LatchNext s i (.faulted k)
  | syscallFault (k : FaultKind) (hop : i.opcode = .sys) (hk : k.ofSyscall = true) : LatchNext s i (.faulted k)
  | exit (code : Byte) (x : Option Reg) (hi : i = .sys code x) (h : s.cfg.syscallOf code = some .exit) :
      LatchNext s i (.halted (s.reg .a))

/-- A syscall other than EXIT either completes, with the latch as it was, or faults with one of SYS's own faults. -/
theorem SysNext.outcome_cases {r : Reg} {s t : State} {n : Syscall} (h : SysNext r s n t) :
    t.outcome = s.outcome ∨ ∃ k, t.outcome = .faulted k ∧ k.ofSyscall = true := by
  cases h with
  | opened | codeRead | memoryRead | wrote | slept => left; simp
  | pathUnterminated | openedTooHigh | rangeOutOfBounds | hostError | codeBad => exact .inr ⟨_, rfl, rfl⟩

theorem ExecNext.latchNext {s t : State} {i : Instr} (h : ExecNext s i t) : LatchNext s i t.outcome := by
  cases h with
  | noneArg1 _ _ hwf => exact .noneOperand .arg1 hwf
  | noneArg2 _ _ hwf => exact .noneOperand .arg2 hwf
  | stkOverflow _ _ hp => exact .stackFault _ rfl hp (.inl rfl)
  | stkUnderflow _ hp => exact .stackFault _ rfl hp (.inr rfl)
  | sysUnsupported => exact .syscallFault _ rfl rfl
  | sysExit code x hexit => exact .exit code x rfl hexit
  | sysReturns _ _ _ _ _ _ hsys =>
    obtain hkept | ⟨k, hfault, hk⟩ := hsys.outcome_cases
    · exact .kept _ hkept
    · exact hfault ▸ .syscallFault k rfl hk
  | stkNothing | jmpNotTaken => exact .kept _ rfl
  | imm | add | stkPush | stkPop | stkMove | stm | ldm | cmp | jmpTaken => exact .kept _ (by simp)

theorem exec_latchNext {i : Instr} {s t : State} {o : Latch} (h : exec i s = .next t) (ho : t.outcome = o) :
    LatchNext s i o :=
  ho ▸ (exec_next h).latchNext

theorem exec_stackFault {i : Instr} {s t : State} (hrun : s.outcome = .running) (h : exec i s = .next t)
    (hfault : (∃ v, t.outcome = .faulted (.stackOverflow v)) ∨ ∃ v, t.outcome = .faulted (.stackUnderflow v)) :
    s.policy = .checked ∧ i.opcode = .stk := by
  obtain ⟨v, ho⟩ | ⟨v, ho⟩ := hfault
  all_goals
    cases exec_latchNext h ho with
    | kept _ hkept => cases hkept.trans hrun
    | stackFault _ hop hp => exact ⟨hp, hop⟩
    | syscallFault _ _ hk => cases hk

theorem exec_invalidOperand {i : Instr} {s t : State} {op : Opcode} {pos : OperandPos} (hrun : s.outcome = .running)
    (h : exec i s = .next t) (ho : t.outcome = .faulted (.invalidOperand op pos)) : i.wellFormed s.cfg = false := by
  cases exec_latchNext h ho with
  | kept _ hkept => cases hkept.trans hrun
  | noneOperand _ hwf => exact hwf
  | stackFault _ _ _ hk => simp at hk
  | syscallFault _ _ hk => cases hk

theorem exec_halted {i : Instr} {s t : State} {c : Byte} (hrun : s.outcome = .running) (h : exec i s = .next t)
    (ho : t.outcome = .halted c) :
    ∃ code r, i = .sys code r ∧ s.cfg.syscallOf code = some .exit ∧ c = s.reg .a := by
  cases exec_latchNext h ho with
  | kept _ hkept => cases hkept.trans hrun
  | exit code r hi hexit => exact ⟨code, r, hi, hexit, rfl⟩

/-! ### STK under `wrap` -/

theorem exists_exec_stk_of_wrap {s : State} (hwrap : s.policy = .wrap) (rd x : Option Reg) :
    ∃ t, exec (.stk rd x) s = .next t := by
  have hbound (bound : Byte) : ¬(s.policy = .checked ∧ s.reg .s = bound) := not_checked_and_eq (.inl hwrap)
  match rd, x with
  | none, none => exact ⟨s, rfl⟩
  | none, some r => exact ⟨_, execStk_push r s (hbound 0xFF)⟩
  | some rd, none => exact ⟨_, execStk_pop rd s (hbound 0x00)⟩
  | some rd, some r => exact ⟨_, execStk_move rd r s (hbound 0xFF)⟩

theorem outcome_of_exec_stk_of_wrap {s t : State} {rd x : Option Reg} (hwrap : s.policy = .wrap)
    (h : exec (.stk rd x) s = .next t) : t.outcome = s.outcome := by
  generalize ho : t.outcome = o
  cases exec_latchNext h ho with
  | kept _ hkept => exact hkept
  | noneOperand _ hwf => cases hwf
  | stackFault _ _ hp => cases hwrap.symm.trans hp
  | syscallFault _ hop => cases hop
  | exit _ _ hi => cases hi

/-! ### None in a required position -/

theorem requireReg_of_not_isSome {op : Opcode} {pos : OperandPos} {x : Option Reg} (s : State) (k : Reg → Result)
    (h : x.isSome = false) : requireReg op pos x s k = raise (.invalidOperand op pos) s := by
  rw [Option.isSome_eq_false_iff, Option.isNone_iff_eq_none] at h
  rw [h, requireReg_none]

theorem exists_requireTwo_of_not_isSome {op : Opcode} {x y : Option Reg} (s : State) (k : Reg → Reg → Result)
    (h : (x.isSome && y.isSome) = false) : ∃ pos, requireTwo op x y s k = raise (.invalidOperand op pos) s := by
  match x, y with
  | none, _ => exact ⟨.arg1, rfl⟩
  | some _, none => exact ⟨.arg2, rfl⟩
  | some _, some _ => cases h

theorem exec_sys_none {s : State} {code : Byte} {n : Syscall} (h : s.cfg.syscallOf code = some n) (hn : n ≠ .exit) :
    exec (.sys code none) s = raise (.invalidOperand .sys .arg2) s := by
  cases n with
  | exit => exact absurd rfl hn
  | openFile | readCode | readMemory | write | sleep => simp only [exec_sys, execSys, h, requireReg_none]

/-- The table of R224: an instruction that is not well-formed is stopped by its operand check. Only an unsupported
syscall code comes before that check (R227). -/
theorem exists_exec_of_not_wellFormed {i : Instr} {s : State}
    (hsupported : ∀ code r, i = .sys code r → s.cfg.syscallOf code ≠ none) (hwf : i.wellFormed s.cfg = false) :
    ∃ pos, exec i s = raise (.invalidOperand i.opcode pos) s := by
  cases i with
  | imm => exact ⟨.arg1, requireReg_of_not_isSome s _ hwf⟩
  | jmp => exact ⟨.arg2, requireReg_of_not_isSome s _ hwf⟩
  | add | stm | ldm | cmp => exact exists_requireTwo_of_not_isSome s _ hwf
  | stk => cases hwf
  | sys code x =>
    obtain ⟨n, hn⟩ := Option.ne_none_iff_exists'.mp (hsupported code x rfl)
    obtain ⟨rfl, hexit⟩ : x = none ∧ n ≠ .exit := by simpa [Instr.wellFormed, hn] using hwf
    exact ⟨.arg2, exec_sys_none hn hexit⟩

/-! ### The obligations -/

/-- Settles O22: the latch of a stack fault comes from STK under `checked` only (`exec_stackFault`); under `wrap` no
bound stops a half, and the pointer's new value is that of the push or the pop (`reg_s_of_push`, `reg_s_of_pop`). -/
theorem stackFaultsOnlyUnderChecked : Obligations.StackFaultsOnlyUnderChecked := by
  refine ⟨fun s i t hrun hexec hfault => exec_stackFault hrun hexec hfault, fun s hwrap =>
    ⟨fun rd x => ?completes, fun x => ?push, fun rd hrd => ?pop⟩⟩
  case completes =>
    obtain ⟨t, hexec⟩ := exists_exec_stk_of_wrap hwrap rd x
    exact ⟨t, hexec, outcome_of_exec_stk_of_wrap hwrap hexec⟩
  case push =>
    obtain ⟨t, hpush⟩ := exists_push_ok (s.reg x) (.inl hwrap)
    exact ⟨t, exec_stk_of_push hpush, by rw [reg_s_of_push hpush, BitVec.toNat_add]; rfl⟩
  case pop =>
    obtain ⟨t, hpop⟩ := exists_pop_ok rd (.inl hwrap)
    exact ⟨t, exec_stk_of_pop hpop, by rw [reg_s_of_pop hpop hrd, BitVec.toNat_sub, Nat.add_comm]; rfl⟩

/-- Settles O46: None in a required position ends in the operand check's fault, which changes only the latch
(`exists_exec_of_not_wellFormed`); in the other direction that latch has no other source (`exec_invalidOperand`). -/
theorem invalidOperandExactlyOnNone : Obligations.InvalidOperandExactlyOnNone := by
  intro i s hrun hsupported
  refine ⟨fun hwf => ?faults, fun ⟨t, pos, hexec, hlatch, _⟩ => exec_invalidOperand hrun hexec hlatch⟩
  obtain ⟨pos, hexec⟩ := exists_exec_of_not_wellFormed hsupported hwf
  obtain ⟨t, hraise, hfault⟩ := exists_faultedOnly_of_raise (.invalidOperand i.opcode pos) s
  exact ⟨t, pos, hexec.trans hraise, hfault⟩

/-- Settles O52: the fetch leaves only a fault in the latch, so the halt is the instruction's own (`exec_halted`), and
the advance before it leaves A as it was. -/
theorem haltOnlyByExit : Obligations.HaltOnlyByExit := by
  intro s t c hstep hhalt
  refine ⟨?exit, fun k hfault => by cases hhalt.symm.trans hfault⟩
  obtain ⟨hrun, ⟨-, rfl⟩ | ⟨ins, hfetch, hexec, -⟩⟩ := step_next hstep
  · cases hhalt
  · obtain ⟨code, r, rfl, hexit, rfl⟩ := exec_halted (s := s.advance) hrun hexec hhalt
    exact ⟨code, r, hfetch, hexit, s.advance_reg_of_ne (by decide)⟩

end Sys2Proof.Machine
end

section
/-! PROOFS. The word and its fields (spec/30_encoding.md R90 to R99). A valid layout puts the three fields at three
different positions of the word, so writing fields into a word and reading them back are inverse; so are writing and
decoding the fields of one instruction. The two round trips compose these. -/
namespace Sys2Proof.Machine

/-! ### The positions of the fields -/

/-- Check 5 of R262, as the proofs use it. -/
theorem layout_positions {C : Constants} (h : layoutValid C = true) :
    (C.layout.pOp < 3 ∧ C.layout.pArg1 < 3 ∧ C.layout.pArg2 < 3) ∧
      C.layout.pArg1 ≠ C.layout.pOp ∧ C.layout.pArg2 ≠ C.layout.pOp ∧ C.layout.pArg2 ≠ C.layout.pArg1 := by
  have hcases := layoutValid_cases h
  simp only [List.mem_cons, List.cons.injEq, List.not_mem_nil, and_true, or_false] at hcases
  omega

theorem encodeAt_pOp (C : Constants) (i : Instr) : encodeAt C i C.layout.pOp = C.opCode i.opcode := if_pos rfl

theorem encodeAt_pArg1 {C : Constants} (h : layoutValid C = true) (i : Instr) :
    encodeAt C i C.layout.pArg1 = encodeArg1 C i := by
  obtain ⟨-, hArg1Op, -⟩ := layout_positions h
  rw [encodeAt, if_neg hArg1Op, if_pos rfl]

theorem encodeAt_pArg2 {C : Constants} (h : layoutValid C = true) (i : Instr) :
    encodeAt C i C.layout.pArg2 = encodeArg2 C i := by
  obtain ⟨-, -, hArg2Op, hArg2Arg1⟩ := layout_positions h
  rw [encodeAt, if_neg hArg2Op, if_neg hArg2Arg1]

theorem byteAt_encodeAt (C : Constants) (i : Instr) {p : Nat} (hp : p < 3) :
    byteAt (encodeAt C i 0) (encodeAt C i 1) (encodeAt C i 2) p = encodeAt C i p := by
  match p, hp with
  | 0, _ | 1, _ | 2, _ => rfl

/-- The other direction: a word that holds an instruction's fields at their positions is its encoding, since every
position is the position of a field. -/
theorem byteAt_eq_encodeAt {C : Constants} (h : layoutValid C = true) {i : Instr} {b0 b1 b2 : Byte}
    (hop : byteAt b0 b1 b2 C.layout.pOp = C.opCode i.opcode) (harg1 : byteAt b0 b1 b2 C.layout.pArg1 = encodeArg1 C i)
    (harg2 : byteAt b0 b1 b2 C.layout.pArg2 = encodeArg2 C i) {p : Nat} (hp : p < 3) :
    byteAt b0 b1 b2 p = encodeAt C i p := by
  have hfield : p = C.layout.pOp ∨ p = C.layout.pArg1 ∨ p = C.layout.pArg2 := by
    have := layout_positions h
    omega
  obtain rfl | rfl | rfl := hfield
  · rw [hop, encodeAt_pOp]
  · rw [harg1, encodeAt_pArg1 h]
  · rw [harg2, encodeAt_pArg2 h]

/-! ### The fields of one instruction -/

/-- Two register operands, from their bytes. -/
theorem decodeTwo_of_ok {C : Constants} {v w : Byte} {x y : Option Reg} (mk : Option Reg → Option Reg → Instr)
    (hx : decodeReg C v = .ok x) (hy : decodeReg C w = .ok y) : decodeTwo C v w mk = .ok (mk x y) := by
  simp only [decodeTwo, hx, hy]

theorem decodeOne_of_ok {C : Constants} {v : Byte} {x : Option Reg} (mk : Option Reg → Instr)
    (hx : decodeReg C v = .ok x) : decodeOne C v mk = .ok (mk x) := by
  simp only [decodeOne, hx]

theorem decodeFields_encode {C : Constants} (hregs : regsValid C = true) (hops : opsValid C = true) (i : Instr) :
    decodeFields C (C.opCode i.opcode) (encodeArg1 C i) (encodeArg2 C i) = .ok i := by
  have hreg : ∀ x, decodeReg C (encodeReg C x) = .ok x := decodeReg_encodeReg hregs
  rw [decodeFields, opcodeOf_opCode hops]
  cases i with
  | imm x v => exact decodeOne_of_ok (fun x => .imm x v) (hreg x)
  | jmp mask x => exact decodeOne_of_ok (.jmp mask) (hreg x)
  | sys code x => exact decodeOne_of_ok (.sys code) (hreg x)
  | add x y => exact decodeTwo_of_ok .add (hreg x) (hreg y)
  | stk x y => exact decodeTwo_of_ok .stk (hreg x) (hreg y)
  | stm x y => exact decodeTwo_of_ok .stm (hreg x) (hreg y)
  | ldm x y => exact decodeTwo_of_ok .ldm (hreg x) (hreg y)
  | cmp x y => exact decodeTwo_of_ok .cmp (hreg x) (hreg y)

/-- A register byte that decodes is the byte of what it decodes to, whatever the configuration. -/
theorem eq_encodeReg_of_decodeReg_ok {C : Constants} {v : Byte} {x : Option Reg} (h : decodeReg C v = .ok x) :
    v = encodeReg C x := by
  unfold decodeReg at h
  split at h
  next hzero =>
    cases h
    exact hzero
  next =>
    split at h
    next r hr =>
      cases h
      exact (regOf_some hr).symm
    next => cases h

theorem fields_of_decodeFields_ok {C : Constants} {op a1 a2 : Byte} {i : Instr}
    (h : decodeFields C op a1 a2 = .ok i) :
    op = C.opCode i.opcode ∧ a1 = encodeArg1 C i ∧ a2 = encodeArg2 C i := by
  cases hop : C.opcodeOf op with
  | none => cases (decodeFields_of_opcodeOf_none a1 a2 hop).symm.trans h
  | some m =>
    rw [opcode_of_decodeFields_ok hop h]
    refine ⟨(opcodeOf_some hop).symm, ?_⟩
    rw [decodeFields, hop] at h
    cases m with
    | imm =>
      obtain ⟨x, hx, rfl⟩ := decodeOne_ok h
      exact ⟨eq_encodeReg_of_decodeReg_ok hx, rfl⟩
    | jmp | sys =>
      obtain ⟨x, hx, rfl⟩ := decodeOne_ok h
      exact ⟨rfl, eq_encodeReg_of_decodeReg_ok hx⟩
    | add | stk | stm | ldm | cmp =>
      obtain ⟨x, y, hx, hy, rfl⟩ := decodeTwo_ok h
      exact ⟨eq_encodeReg_of_decodeReg_ok hx, eq_encodeReg_of_decodeReg_ok hy⟩

/-! ### A word of the stream -/

theorem decode_cons (C : Constants) (b0 b1 b2 : Byte) (rest : List Byte) :
    decode C (b0 :: b1 :: b2 :: rest) =
      (decodeFields C (byteAt b0 b1 b2 C.layout.pOp) (byteAt b0 b1 b2 C.layout.pArg1)
        (byteAt b0 b1 b2 C.layout.pArg2)).map (·, rest) := by
  rw [decode]
  split <;> simp_all [Except.map]

/-- Fewer than three bytes, or a word and what is left. -/
theorem stream_cases (bytes : List Byte) :
    bytes.length < 3 ∨ ∃ b0 b1 b2 rest, bytes = b0 :: b1 :: b2 :: rest := by
  match bytes with
  | [] | [_] | [_, _] => exact .inl (by simp)
  | b0 :: b1 :: b2 :: rest => exact .inr ⟨b0, b1, b2, rest, rfl⟩

theorem decode_of_length_lt (C : Constants) {bytes : List Byte} (h : bytes.length < 3) :
    decode C bytes = .error .partialWord := by
  match bytes, h with
  | [], _ | [_], _ | [_, _], _ => rfl

/-! ### The round trips -/

/-- Settles O1: each field is read at the position where it was written (`byteAt_encodeAt`), and the three fields decode
to the instruction (`decodeFields_encode`). -/
theorem decodeReadsWhatEncodeWrites : Obligations.DecodeReadsWhatEncodeWrites := by
  intro C i rest hvalid
  obtain ⟨hregs, -, hops, -, hlayout⟩ := configValid_parts hvalid
  obtain ⟨⟨hOp, hArg1, hArg2⟩, -⟩ := layout_positions hlayout
  calc decode C (encode C i ++ rest)
      = (decodeFields C (C.opCode i.opcode) (encodeArg1 C i) (encodeArg2 C i)).map (·, rest) := by
        rw [← encodeAt_pOp C i, ← encodeAt_pArg1 hlayout i, ← encodeAt_pArg2 hlayout i, ← byteAt_encodeAt C i hOp,
          ← byteAt_encodeAt C i hArg1, ← byteAt_encodeAt C i hArg2]
        exact decode_cons C _ _ _ rest
    _ = .ok (i, rest) := by rw [decodeFields_encode hregs hops i]; rfl

/-- Settles O2: fields that decode to `i` are the fields of `i` (`fields_of_decodeFields_ok`), and the word holds no
other position (`byteAt_eq_encodeAt`). -/
theorem decodedBytesAreTheEncoding : Obligations.DecodedBytesAreTheEncoding := by
  intro C bytes rest i hvalid hdecode
  obtain ⟨-, -, -, -, hlayout⟩ := configValid_parts hvalid
  obtain hshort | ⟨b0, b1, b2, tail, rfl⟩ := stream_cases bytes
  · cases (decode_of_length_lt C hshort).symm.trans hdecode
  rw [decode_cons] at hdecode
  cases hfields : decodeFields C (byteAt b0 b1 b2 C.layout.pOp) (byteAt b0 b1 b2 C.layout.pArg1)
      (byteAt b0 b1 b2 C.layout.pArg2) with
  | error e => rw [hfields] at hdecode; cases hdecode
  | ok j =>
    rw [hfields] at hdecode
    cases hdecode
    obtain ⟨hop, harg1, harg2⟩ := fields_of_decodeFields_ok hfields
    have hbyte : ∀ p < 3, byteAt b0 b1 b2 p = encodeAt C i p :=
      fun p => byteAt_eq_encodeAt hlayout hop harg1 harg2
    have h0 : b0 = encodeAt C i 0 := hbyte 0 (by decide)
    have h1 : b1 = encodeAt C i 1 := hbyte 1 (by decide)
    have h2 : b2 = encodeAt C i 2 := hbyte 2 (by decide)
    rw [h0, h1, h2]
    rfl

/-! ### A whole program -/

theorem length_encode (C : Constants) (i : Instr) : (encode C i).length = 3 := rfl

theorem length_flatMap_encode (C : Constants) (prog : List Instr) :
    (prog.flatMap (encode C)).length = 3 * prog.length := by
  induction prog with
  | nil => rfl
  | cons i prog ih => rw [List.flatMap_cons, List.length_append, length_encode, ih, List.length_cons]; omega

theorem decodeWords_encode_append {C : Constants} (hvalid : configValid C = true) (i : Instr) {stream : List Byte}
    {prog : List Instr} (h : decodeWords C stream = .ok prog) :
    decodeWords C (encode C i ++ stream) = .ok (i :: prog) := by
  have hword : decode C [encodeAt C i 0, encodeAt C i 1, encodeAt C i 2] = .ok (i, []) :=
    decodeReadsWhatEncodeWrites C i [] hvalid
  rw [encode, List.cons_append, List.cons_append, List.cons_append, List.nil_append, decodeWords]
  simp only [hword, h]

theorem decodeWords_flatMap_encode {C : Constants} (hvalid : configValid C = true) (prog : List Instr) :
    decodeWords C (prog.flatMap (encode C)) = .ok prog := by
  induction prog with
  | nil => rfl
  | cons i prog ih => exact decodeWords_encode_append hvalid i ih

theorem decodeStream_of_length {C : Constants} {bytes : List Byte} (h : bytes.length % 3 ≠ 0) :
    decodeStream C bytes = .error .partialWord := if_neg h

/-- Settles O3, by induction on the program (`decodeWords_flatMap_encode`); the stream's length is three bytes for each
instruction, so one or two more fail the length check. -/
theorem programStreamRoundTrip : Obligations.ProgramStreamRoundTrip := by
  intro C prog hvalid
  have hlength := length_flatMap_encode C prog
  refine ⟨?whole, fun b0 b1 => ⟨decodeStream_of_length ?one, decodeStream_of_length ?two⟩⟩
  case whole => rw [decodeStream, if_pos (by omega), decodeWords_flatMap_encode hvalid]
  case one => rw [List.length_append, List.length_singleton]; omega
  case two => rw [List.length_append, List.length_cons, List.length_singleton]; omega

/-! ### The rejections -/

/-- A nonzero register byte that is no register's code is reported itself (R99). -/
theorem decodeReg_of_unknown {C : Constants} {v : Byte} (hv : v ≠ 0) (hcodes : ∀ r, C.regCode r ≠ v) :
    decodeReg C v = .error (.register v) := by
  rw [decodeReg, if_neg hv, regOf_none.mpr hcodes]

/-- Settles O5: None and the registers' codes are what `encodeReg` writes, and decode back (`decodeReg_encodeReg`). -/
theorem registerByteDecodes : Obligations.RegisterByteDecodes := by
  intro C v
  refine ⟨?none, ?register, decodeReg_of_unknown⟩
  case none =>
    rintro rfl
    rfl
  case register =>
    rintro hregs r rfl
    exact decodeReg_encodeReg hregs (some r)

/-- The operand arg1 is a register in every variant but JMP and SYS (R97). -/
theorem decodeFields_of_arg1_error {C : Constants} {op a1 : Byte} {m : Opcode} {e : DecodeError} (a2 : Byte)
    (hop : C.opcodeOf op = some m) (hjmp : m ≠ .jmp) (hsys : m ≠ .sys) (h : decodeReg C a1 = .error e) :
    decodeFields C op a1 a2 = .error e := by
  rw [decodeFields, hop]
  cases m with
  | imm => simp only [decodeOne, h]
  | add | stk | stm | ldm | cmp => simp only [decodeTwo, h]
  | jmp => exact absurd rfl hjmp
  | sys => exact absurd rfl hsys

/-- The operand arg2 is a register in every variant but IMM (R97); it is looked at once arg1 has passed. -/
theorem decodeFields_of_arg2_error {C : Constants} {op a1 a2 : Byte} {m : Opcode} {e : DecodeError}
    (hop : C.opcodeOf op = some m) (himm : m ≠ .imm) (harg1 : m = .jmp ∨ m = .sys ∨ ∃ x, decodeReg C a1 = .ok x)
    (h : decodeReg C a2 = .error e) : decodeFields C op a1 a2 = .error e := by
  rw [decodeFields, hop]
  cases m with
  | imm => exact absurd rfl himm
  | jmp | sys => simp only [decodeOne, h]
  | add | stk | stm | ldm | cmp =>
    obtain ⟨x, hx⟩ : ∃ x, decodeReg C a1 = .ok x := by simpa using harg1
    simp only [decodeTwo, hx, h]

/-- Why the fields of a word are rejected: the first bad field of op, arg1 and arg2. -/
theorem decodeFields_error_cases {C : Constants} {op a1 a2 : Byte} {e : DecodeError}
    (h : decodeFields C op a1 a2 = .error e) :
    ((∀ m, C.opCode m ≠ op) ∧ e = .opcode op) ∨
    (∃ m, C.opCode m = op ∧ m ≠ .jmp ∧ m ≠ .sys ∧ decodeReg C a1 = .error e) ∨
    (∃ m, C.opCode m = op ∧ m ≠ .imm ∧ (m = .jmp ∨ m = .sys ∨ ∃ x, decodeReg C a1 = .ok x) ∧
      decodeReg C a2 = .error e) := by
  cases hop : C.opcodeOf op with
  | none =>
    cases (decodeFields_of_opcodeOf_none a1 a2 hop).symm.trans h
    exact .inl ⟨opcodeOf_none.mp hop, rfl⟩
  | some m =>
    have hcode := opcodeOf_some hop
    rw [decodeFields, hop] at h
    cases m with
    | imm => exact .inr (.inl ⟨_, hcode, by decide, by decide, decodeOne_error h⟩)
    | jmp => exact .inr (.inr ⟨_, hcode, by decide, .inl rfl, decodeOne_error h⟩)
    | sys => exact .inr (.inr ⟨_, hcode, by decide, .inr (.inl rfl), decodeOne_error h⟩)
    | add | stk | stm | ldm | cmp =>
      obtain harg1 | ⟨hx, harg2⟩ := decodeTwo_error h
      · exact .inr (.inl ⟨_, hcode, by decide, by decide, harg1⟩)
      · exact .inr (.inr ⟨_, hcode, by decide, .inr (.inr hx), harg2⟩)

theorem decode_cons_error_iff {C : Constants} {b0 b1 b2 : Byte} {rest : List Byte} {e : DecodeError} :
    decode C (b0 :: b1 :: b2 :: rest) = .error e ↔
      decodeFields C (byteAt b0 b1 b2 C.layout.pOp) (byteAt b0 b1 b2 C.layout.pArg1)
        (byteAt b0 b1 b2 C.layout.pArg2) = .error e := by
  rw [decode_cons]
  cases decodeFields C (byteAt b0 b1 b2 C.layout.pOp) (byteAt b0 b1 b2 C.layout.pArg1)
    (byteAt b0 b1 b2 C.layout.pArg2) <;> simp [Except.map]

/-- Settles O6: a short stream is partial, and a word is rejected as its fields are; `decodeFields_error_cases` gives
the cause of each error, `decodeFields_of_opcodeOf_none`, `decodeFields_of_arg1_error` and `decodeFields_of_arg2_error`
the error of each cause. -/
theorem decodeRejectsOnlyThreeWays : Obligations.DecodeRejectsOnlyThreeWays := by
  intro C hvalid
  obtain ⟨-, -, hops, -, -⟩ := configValid_parts hvalid
  refine ⟨fun bytes e herror => ?causes, fun bytes => decode_of_length_lt C, fun b0 b1 b2 rest =>
    ⟨fun hop => ?opcode, fun m hop => ⟨fun hjmp hsys hzero hcodes => ?arg1, fun himm harg1 hzero hcodes => ?arg2⟩⟩⟩
  case causes =>
    obtain hshort | ⟨b0, b1, b2, rest, rfl⟩ := stream_cases bytes
    · cases (decode_of_length_lt C hshort).symm.trans herror
      exact .inl ⟨hshort, rfl⟩
    refine .inr ⟨b0, b1, b2, rest, rfl, ?_⟩
    obtain hop | ⟨m, hcode, hjmp, hsys, hreg⟩ | ⟨m, hcode, himm, harg1, hreg⟩ :=
      decodeFields_error_cases (decode_cons_error_iff.mp herror)
    · exact .inl hop
    · obtain ⟨rfl, -, -⟩ := decodeReg_error hreg
      exact .inr (.inl ⟨m, hcode, hjmp, hsys, hreg, rfl⟩)
    · obtain ⟨rfl, -, -⟩ := decodeReg_error hreg
      exact .inr (.inr ⟨m, hcode, himm, harg1, hreg, rfl⟩)
  case opcode => exact decode_cons_error_iff.mpr (decodeFields_of_opcodeOf_none _ _ (opcodeOf_none.mpr hop))
  case arg1 =>
    exact decode_cons_error_iff.mpr
      (decodeFields_of_arg1_error _ (hop ▸ opcodeOf_opCode hops m) hjmp hsys (decodeReg_of_unknown hzero hcodes))
  case arg2 =>
    exact decode_cons_error_iff.mpr
      (decodeFields_of_arg2_error (hop ▸ opcodeOf_opCode hops m) himm harg1 (decodeReg_of_unknown hzero hcodes))

/-- Settles O7, by running the decoder on the nine words. -/
theorem handWrittenWordsDecode : Obligations.HandWrittenWordsDecode := by
  unfold Obligations.HandWrittenWordsDecode
  decide

end Sys2Proof.Machine
end

section
/-! PROOFS. What a step leaves unchanged, in every piece of state, and the invariant (spec/00_scope.md section 4,
spec/10_state.md, spec/20_memory.md, spec/45_sys.md, spec/70_reset_and_hazards.md R262). Each rule is read off `SysNext`
and `ExecNext` once: a syscall first, then an instruction. -/
namespace Sys2Proof.Machine

section
variable {r : Reg} {s t : State} {n : Syscall} {i : Instr}

/-! ### The construction inputs -/

theorem SysNext.sameInputs (h : SysNext r s n t) : SameInputs s t := by
  cases h <;> exact ⟨rfl, rfl⟩

theorem ExecNext.sameInputs (h : ExecNext s i t) : SameInputs s t := by
  cases h with
  | sysReturns _ _ _ _ _ _ hsys => exact hsys.sameInputs
  | _ => exact ⟨rfl, rfl⟩

/-! ### Registers -/

theorem sameRegs_latch (but : List Reg) (s : State) (o : Latch) : SameRegs but s (s.latch o) := fun _ _ => rfl

theorem sameRegs_setReg {but : List Reg} {r : Reg} (hr : r ∈ but) {u : State} (h : SameRegs but s u) (v : Byte) :
    SameRegs but s (u.setReg r v) := by
  intro q hq
  rw [State.reg_setReg_of_ne u (by rintro rfl; exact hq hr) v, h q hq]

theorem SysNext.sameRegs (h : SysNext r s n t) : SameRegs [r] s t := by
  have hkept : SameRegs [r] s s := fun _ _ => rfl
  cases h with
  | opened | codeRead | memoryRead | wrote | slept => exact sameRegs_setReg (by simp) hkept _
  | _ => exact hkept

/-- The written registers of R24's table. -/
theorem ExecNext.sameRegs (h : ExecNext s i t) : SameRegs (Instr.writes s.cfg i) s t := by
  have hkept (but : List Reg) : SameRegs but s s := fun _ _ => rfl
  cases h with
  | imm | add | ldm | cmp | jmpTaken | stkPush => exact sameRegs_setReg (by simp [Instr.writes]) (hkept _) _
  | stkPop =>
    exact sameRegs_setReg (by simp [Instr.writes]) (sameRegs_setReg (by simp [Instr.writes]) (hkept _) _) _
  | stkMove =>
    exact sameRegs_setReg (by simp [Instr.writes])
      (sameRegs_setReg (by simp [Instr.writes]) (sameRegs_setReg (by simp [Instr.writes]) (hkept _) _) _) _
  | sysReturns code r n t hcode hn hsys => simpa [Instr.writes, hcode, hn] using hsys.sameRegs
  | _ => exact hkept _

/-! ### Data memory -/

theorem SysNext.mem_eq (h : SysNext r s n t) (hn : n ≠ .readMemory) : t.mem = s.mem := by
  cases h with
  | memoryRead => exact absurd rfl hn
  | _ => rfl

theorem ExecNext.mem_eq (h : ExecNext s i t) (hop : i.opcode ≠ .stm)
    (hcode : ∀ code r, i = .sys code r → s.cfg.syscallOf code ≠ some .readMemory) : t.mem = s.mem := by
  cases h with
  | stm => exact absurd rfl hop
  | sysReturns code r n _ hn _ hsys =>
    exact hsys.mem_eq fun hread => hcode code (some r) rfl (hread ▸ hn)
  | _ => rfl

theorem SysNext.wf_mem (h : SysNext r s n t) (hwf : Memory.wf s.mem = true) : Memory.wf t.mem = true := by
  cases h with
  | memoryRead _ start bytes hb => exact Memory.wf_writeMany bytes s.mem start hb hwf
  | _ => exact hwf

theorem ExecNext.wf_mem (h : ExecNext s i t) (hwf : Memory.wf s.mem = true) : Memory.wf t.mem = true := by
  cases h with
  | stm => exact State.wf_setMemByte s _ _ hwf
  | sysReturns _ _ _ _ _ _ hsys => exact hsys.wf_mem hwf
  | _ => exact hwf

/-! ### The stack array -/

theorem SysNext.stk_eq (h : SysNext r s n t) : t.stk = s.stk := by
  cases h <;> rfl

theorem ExecNext.stk_eq (h : ExecNext s i t) (hop : i.opcode ≠ .stk) : t.stk = s.stk := by
  cases h with
  | stkPush | stkMove => exact absurd rfl hop
  | sysReturns _ _ _ _ _ _ hsys => exact hsys.stk_eq
  | _ => rfl

theorem ExecNext.wf_stk (h : ExecNext s i t) (hwf : Memory.wf s.stk = true) : Memory.wf t.stk = true := by
  cases h with
  | stkPush | stkMove => exact State.wf_setStkByte s _ _ hwf
  | sysReturns _ _ _ _ _ _ hsys => exact hsys.stk_eq ▸ hwf
  | _ => exact hwf

/-! ### The instruction store -/

theorem SysNext.prog_eq (h : SysNext r s n t) (hn : n ≠ .readCode) : t.prog = s.prog := by
  cases h with
  | codeRead => exact absurd rfl hn
  | _ => rfl

theorem SysNext.progLen_le (h : SysNext r s n t) : s.progLen ≤ t.progLen := by
  cases h with
  | codeRead _ _ hs is => exact (le_max_left _ _).trans_eq (storeAt_length s.prog is hs).symm
  | _ => exact le_rfl

theorem ExecNext.prog_eq (h : ExecNext s i t)
    (hcode : ∀ code r, i = .sys code r → s.cfg.syscallOf code ≠ some .readCode) : t.prog = s.prog := by
  cases h with
  | sysReturns code r n _ hn _ hsys => exact hsys.prog_eq fun hread => hcode code (some r) rfl (hread ▸ hn)
  | _ => rfl

theorem ExecNext.progLen_le (h : ExecNext s i t) : s.progLen ≤ t.progLen := by
  cases h with
  | sysReturns _ _ _ _ _ _ hsys => exact hsys.progLen_le
  | _ => exact le_rfl

/-! ### The descriptor table -/

theorem SysNext.fdtable_eq (h : SysNext r s n t) (hn : n ≠ .openFile) : t.fdtable = s.fdtable := by
  cases h with
  | opened | openedTooHigh => exact absurd rfl hn
  | _ => rfl

/-- OPEN adds the answered descriptor, returned or not (D17); nothing else touches the table. -/
theorem SysNext.fdtable_cases (h : SysNext r s n t) : t.fdtable = s.fdtable ∨ ∃ fd, t.fdtable = addFd s.fdtable fd := by
  cases h with
  | opened _ fd | openedTooHigh _ fd => exact .inr ⟨fd, rfl⟩
  | _ => exact .inl rfl

theorem ExecNext.fdtable_eq (h : ExecNext s i t)
    (hcode : ∀ code r, i = .sys code r → s.cfg.syscallOf code ≠ some .openFile) : t.fdtable = s.fdtable := by
  cases h with
  | sysReturns code r n _ hn _ hsys => exact hsys.fdtable_eq fun hopen => hcode code (some r) rfl (hopen ▸ hn)
  | _ => rfl

theorem ExecNext.fdtable_cases (h : ExecNext s i t) :
    t.fdtable = s.fdtable ∨ ∃ fd, t.fdtable = addFd s.fdtable fd := by
  cases h with
  | sysReturns _ _ _ _ _ _ hsys => exact hsys.fdtable_cases
  | _ => exact .inl rfl

theorem ExecNext.mem_fdtable (h : ExecNext s i t) {fd : Nat} (hfd : fd ∈ s.fdtable) : fd ∈ t.fdtable := by
  obtain hsame | ⟨_, hadded⟩ := h.fdtable_cases
  · rwa [hsame]
  · rw [hadded, mem_addFd]
    exact .inr hfd

theorem ExecNext.fdAscending (h : ExecNext s i t) (hasc : s.fdtable.Pairwise (· < ·)) :
    t.fdtable.Pairwise (· < ·) := by
  obtain hsame | ⟨fd, hadded⟩ := h.fdtable_cases
  · rwa [hsame]
  · rw [hadded]
    exact addFd_ascending s.fdtable fd hasc

/-! ### The host port -/

theorem sameHostPort_latch (s : State) (o : Latch) : SameHostPort s (s.latch o) := ⟨rfl, rfl, rfl, rfl⟩

/-- A syscall that ends in a next state issued no request or exactly one. -/
theorem SysNext.hostOut_eq_or_asked (h : SysNext r s n t) : t.hostOut = s.hostOut ∨ ∃ req, Asked req s t := by
  cases h with
  | pathUnterminated | rangeOutOfBounds => exact .inl rfl
  | opened path | openedTooHigh path => exact .inr ⟨_, asked_afterRequest (.openFile path) s⟩
  | hostError _ _ req | codeBad req | codeRead req | memoryRead req | wrote req | slept req =>
    exact .inr ⟨req, asked_afterRequest req s⟩

theorem ExecNext.hostOut_eq_or_asked (h : ExecNext s i t) :
    t.hostOut = s.hostOut ∨
      ∃ code r req, i = .sys code (some r) ∧ s.cfg.syscallOf code ≠ some .exit ∧ Asked req s t := by
  cases h with
  | sysReturns code r n _ hcode hn hsys =>
    obtain hsame | ⟨req, hasked⟩ := hsys.hostOut_eq_or_asked
    · exact .inl hsame
    · exact .inr ⟨code, r, req, rfl, by simpa [hcode] using hn, hasked⟩
  | _ => exact .inl rfl

/-! ### Faults -/

/-- Where a fault of R221 comes from: construction, the fetch, a check before any host request, or the host's answer. -/
inductive FaultOrigin where
  | construction | fetch | check | host

def FaultKind.origin : FaultKind → FaultOrigin
  | .programCounterOutOfRange _ => .fetch
  | .invalidOperand _ _ => .check
  | .stackOverflow _ => .check
  | .stackUnderflow _ => .check
  | .outOfBounds _ _ => .check
  | .unsupportedSyscall _ => .check
  | .fileDescriptorOverflow _ => .host
  | .hostIoError _ => .host
  | .decodeError .config => .construction
  | .decodeError _ => .host

/-- Every way an instruction ends in a fault: only the latch is set where a check fails; after a request the host has
done what it did, and the descriptor table may hold one more. -/
inductive FaultNext (s : State) (k : FaultKind) : State → Prop where
  | checked (hk : k.origin = .check) : FaultNext s k (s.latch (.faulted k))
  | answered (req : HostRequest) (hk : k.origin = .host) : FaultNext s k ((s.afterRequest req).latch (.faulted k))
  | opened (req : HostRequest) (fd : Nat) (hk : k.origin = .host) :
      FaultNext s k (((s.afterRequest req).ownFd fd).latch (.faulted k))

theorem origin_decodeError {e : DecodeError} (he : e ≠ .config) : (FaultKind.decodeError e).origin = .host := by
  cases e with
  | config => exact absurd rfl he
  | _ => rfl

theorem SysNext.faultNext {k : FaultKind} (h : SysNext r s n t) (hrun : s.outcome = .running)
    (hk : t.outcome = .faulted k) : FaultNext s k t := by
  cases h with
  | pathUnterminated | rangeOutOfBounds => cases hk; exact .checked rfl
  | openedTooHigh => cases hk; exact .opened _ _ rfl
  | hostError => cases hk; exact .answered _ rfl
  | codeBad _ e he => cases hk; exact .answered _ (origin_decodeError he)
  | opened | codeRead | memoryRead | wrote | slept => cases hrun.symm.trans hk

theorem ExecNext.faultNext {k : FaultKind} (h : ExecNext s i t) (hrun : s.outcome = .running)
    (hk : t.outcome = .faulted k) : FaultNext s k t := by
  cases h with
  | noneArg1 | noneArg2 | stkOverflow | stkUnderflow | sysUnsupported => cases hk; exact .checked rfl
  | sysReturns _ _ _ _ _ _ hsys => exact hsys.faultNext hrun hk
  | sysExit => cases hk
  | _ => cases hrun.symm.trans hk

theorem FaultNext.origin_cases {k : FaultKind} (h : FaultNext s k t) : k.origin = .check ∨ k.origin = .host := by
  cases h with
  | checked hk => exact .inl hk
  | answered _ hk | opened _ _ hk => exact .inr hk

theorem FaultNext.sameHostPort {k : FaultKind} (h : FaultNext s k t) (hk : k.origin = .check) : SameHostPort s t := by
  cases h with
  | checked => exact sameHostPort_latch s _
  | answered _ hhost | opened _ _ hhost => cases hk.symm.trans hhost

theorem FaultNext.asked {k : FaultKind} (h : FaultNext s k t) (hk : k.origin = .host) : ∃ req, Asked req s t := by
  cases h with
  | checked hcheck => cases hk.symm.trans hcheck
  | answered req | opened req => exact ⟨req, asked_afterRequest req s⟩

/-- Faults are precise (R226). -/
theorem FaultNext.frame {k : FaultKind} (h : FaultNext s k t) :
    SameRegs [] s t ∧ SameMem s t ∧ SameStk s t ∧ t.prog = s.prog := by
  cases h <;> exact ⟨fun _ _ => rfl, fun _ => rfl, fun _ => rfl, rfl⟩

/-! ### A step -/

/-- The fetch fault changes the latch alone; the advance before an instruction changes I alone. So whatever every
instruction keeps, and the latch and I do not touch, every step keeps. -/
theorem step_keeps {R : State → State → Prop} (hlatch : ∀ s o, R s (s.latch o))
    (hexec : ∀ s i t, ExecNext s.advance i t → R s t) (h : step s = .next t) : R s t := by
  obtain ⟨-, ⟨-, rfl⟩ | ⟨ins, -, -, hnext⟩⟩ := step_next h
  · exact hlatch s _
  · exact hexec s ins t hnext

theorem step_sameInputs (h : step s = .next t) : SameInputs s t :=
  step_keeps (fun _ _ => ⟨rfl, rfl⟩) (fun _ _ _ hnext => hnext.sameInputs) h

theorem step_progLen_le (h : step s = .next t) : s.progLen ≤ t.progLen :=
  step_keeps (R := fun s t => s.progLen ≤ t.progLen) (fun _ _ => le_rfl) (fun _ _ _ hnext => hnext.progLen_le) h

theorem step_mem_fdtable (h : step s = .next t) : ∀ fd ∈ s.fdtable, fd ∈ t.fdtable :=
  step_keeps (R := fun s t => ∀ fd ∈ s.fdtable, fd ∈ t.fdtable) (fun _ _ _ hfd => hfd)
    (fun _ _ _ hnext _ => hnext.mem_fdtable) h

theorem step_outcome_ne_config (h : step s = .next t) : t.outcome ≠ .faulted (.decodeError .config) := by
  intro hconfig
  obtain ⟨hrun, ⟨-, rfl⟩ | ⟨ins, -, -, hnext⟩⟩ := step_next h
  · cases hconfig
  · obtain hcheck | hhost := (hnext.faultNext hrun hconfig).origin_cases
    · cases hcheck
    · cases hhost

/-! ### The invariant -/

/-- A step starts from Running, and the invariant lets only a valid configuration run. -/
theorem State.Inv.configValid_of_running (hinv : s.Inv) (hrun : s.outcome = .running) : configValid s.cfg = true := by
  rw [← Bool.not_eq_false]
  intro hbad
  cases hrun.symm.trans (hinv.configLatched.mpr hbad)

theorem State.Inv.of_step (hinv : s.Inv) (h : step s = .next t) : t.Inv where
  memCanonical := step_keeps (R := fun s t => Memory.wf s.mem = true → Memory.wf t.mem = true)
    (fun _ _ hwf => hwf) (fun _ _ _ hnext => hnext.wf_mem) h hinv.memCanonical
  stkCanonical := step_keeps (R := fun s t => Memory.wf s.stk = true → Memory.wf t.stk = true)
    (fun _ _ hwf => hwf) (fun _ _ _ hnext => hnext.wf_stk) h hinv.stkCanonical
  fdAscending := step_keeps (R := fun s t => s.fdtable.Pairwise (· < ·) → t.fdtable.Pairwise (· < ·))
    (fun _ _ hasc => hasc) (fun _ _ _ hnext => hnext.fdAscending) h hinv.fdAscending
  configLatched := by
    obtain ⟨hrun, -⟩ := step_next h
    obtain ⟨hcfg, -⟩ := step_sameInputs h
    have hvalid := hinv.configValid_of_running hrun
    rw [hcfg, hvalid]
    exact iff_of_false (step_outcome_ne_config h) (by decide)

/-- A malformed configuration has latched its fault, so nothing is reached but the state itself. -/
theorem Reaches.eq_of_malformed (hinv : s.Inv) (hbad : configValid s.cfg = false) (h : Reaches s t) : t = s := by
  induction h with
  | here => rfl
  | step _ hstep ih =>
    subst ih
    obtain ⟨hrun, -⟩ := step_next hstep
    cases hrun.symm.trans (hinv.configLatched.mpr hbad)

/-- What every step keeps, every run keeps. -/
theorem Reaches.keeps {R : State → State → Prop} (hrefl : ∀ s, R s s) (htrans : ∀ s t u, R s t → R t u → R s u)
    (hstep : ∀ s t, Machine.step s = .next t → R s t) (h : Reaches s t) : R s t := by
  induction h with
  | here => exact hrefl s
  | step _ hlast ih => exact htrans _ _ _ ih (hstep _ _ hlast)

theorem Reaches.inv (hinv : s.Inv) (h : Reaches s t) : t.Inv :=
  h.keeps (R := fun s t => s.Inv → t.Inv) (fun _ => id) (fun _ _ _ hst htu hs => htu (hst hs))
    (fun _ _ hstep hs => hs.of_step hstep) hinv

theorem Reaches.sameInputs (h : Reaches s t) : SameInputs s t :=
  h.keeps (fun _ => ⟨rfl, rfl⟩)
    (fun _ _ _ ⟨hcfg, hpolicy⟩ ⟨hcfg', hpolicy'⟩ => ⟨hcfg'.trans hcfg, hpolicy'.trans hpolicy⟩)
    (fun _ _ => step_sameInputs)

theorem Reaches.progLen_le (h : Reaches s t) : s.progLen ≤ t.progLen :=
  h.keeps (R := fun s t => s.progLen ≤ t.progLen) (fun _ => le_rfl) (fun _ _ _ => le_trans)
    (fun _ _ => step_progLen_le)

theorem Reaches.mem_fdtable (h : Reaches s t) : ∀ fd ∈ s.fdtable, fd ∈ t.fdtable :=
  h.keeps (R := fun s t => ∀ fd ∈ s.fdtable, fd ∈ t.fdtable) (fun _ _ => id)
    (fun _ _ _ hst htu fd hfd => htu fd (hst fd hfd)) (fun _ _ => step_mem_fdtable)

/-! ### The instruction pointer -/

/-- An instruction that the table lists as a writer of I is a JMP or has I as its destination operand. -/
theorem ExecNext.reg_i_cases (h : ExecNext s i t) (hwrites : Reg.i ∈ Instr.writes s.cfg i) :
    t.reg .i = s.reg .i ∨
    (∃ mask r, i = .jmp mask (some r) ∧ s.reg .f &&& mask ≠ 0 ∧ t.reg .i = s.reg r) ∨
    (∃ v, i = .imm (some .i) v) ∨ (∃ y, i = .add (some .i) y) ∨ (∃ y, i = .ldm (some .i) y) ∨
    (∃ y, i = .stk (some .i) y) ∨ ∃ code, i = .sys code (some .i) ∧ s.cfg.syscallOf code ≠ some .exit := by
  cases i with
  | imm | add | ldm | stk | sys => simp_all [Instr.writes]
  | stm | cmp => simp [Instr.writes] at hwrites
  | jmp mask =>
    cases h with
    | noneArg1 | noneArg2 | jmpNotTaken => exact .inl rfl
    | jmpTaken _ r htaken => exact .inr (.inl ⟨mask, r, rfl, htaken, State.reg_setReg_self s .i _⟩)

end

/-! ### The obligations -/

/-- Settles O59: each part of the invariant by its own rule (`State.Inv.of_step`). -/
theorem stepKeepsInvariant : Obligations.StepKeepsInvariant :=
  fun _ _ hinv hstep => ⟨hinv.of_step hstep, step_sameInputs hstep⟩

/-- Settles O60, by induction on the run, packaged once as `Reaches.keeps`. -/
theorem everyReachedStateKeepsPromises : Obligations.EveryReachedStateKeepsPromises :=
  fun _ _ hinv hreach => ⟨hreach.inv hinv, hreach.sameInputs, hreach.progLen_le, hreach.mem_fdtable,
    fun hbad => hreach.eq_of_malformed hinv hbad⟩

/-- Settles O47. -/
theorem onlyTabledRegistersAreWritten : Obligations.OnlyTabledRegistersAreWritten :=
  fun _ _ _ hexec => (exec_next hexec).sameRegs

/-- Settles O49. -/
theorem onlyStmAndReadMemoryWriteMemory : Obligations.OnlyStmAndReadMemoryWriteMemory :=
  fun _ _ _ hexec => (exec_next hexec).mem_eq

/-- Settles O51. -/
theorem onlyReadCodeWritesTheStore : Obligations.OnlyReadCodeWritesTheStore :=
  fun _ _ _ hexec => ⟨(exec_next hexec).progLen_le, (exec_next hexec).prog_eq⟩

/-- Settles O55. -/
theorem atMostOneRequestPerInstruction : Obligations.AtMostOneRequestPerInstruction :=
  fun _ _ _ hexec => (exec_next hexec).hostOut_eq_or_asked

/-- Settles O56. -/
theorem descriptorsAreNeverClosed : Obligations.DescriptorsAreNeverClosed :=
  fun _ _ _ hexec => ⟨fun _ => (exec_next hexec).mem_fdtable, (exec_next hexec).fdtable_eq⟩

/-- Settles O54: the kinds named in the statement are those of the two origins that an instruction's fault can have
(`FaultNext`); a malformed configuration is neither. -/
theorem faultOrderAroundTheHostRequest : Obligations.FaultOrderAroundTheHostRequest := by
  intro i s t k hrun hexec hfault
  have hnext : FaultNext s k t := (exec_next hexec).faultNext hrun hfault
  have hconfig : k ≠ .decodeError .config := by
    rintro rfl
    obtain hcheck | hhost := hnext.origin_cases
    · cases hcheck
    · cases hhost
  refine ⟨fun hbefore => hnext.sameHostPort ?before, fun hafter => hnext.asked ?after, hconfig⟩
  case before => obtain ⟨_, rfl⟩ | ⟨_, _, rfl⟩ | ⟨_, _, rfl⟩ := hbefore <;> rfl
  case after =>
    obtain ⟨_, rfl⟩ | ⟨_, rfl⟩ | ⟨e, rfl⟩ := hafter
    · rfl
    · rfl
    · exact origin_decodeError fun he => hconfig (he ▸ rfl)

/-- Settles O53: the fetch fault sets the latch alone, before the advance; an instruction's fault follows the advance,
which changes I alone, and is precise (`FaultNext.frame`). -/
theorem faultsArePrecise : Obligations.FaultsArePrecise := by
  intro s t k hstep hfault
  obtain ⟨hrun, ⟨-, rfl⟩ | ⟨ins, -, -, hnext⟩⟩ := step_next hstep
  case inl =>
    cases hfault
    exact ⟨fun _ => rfl, fun hother => absurd rfl (hother _), fun _ _ => rfl, fun _ => rfl, fun _ => rfl, rfl,
      .inl ⟨rfl, rfl⟩⟩
  case inr =>
    have hfaultNext : FaultNext s.advance k t := hnext.faultNext hrun hfault
    obtain ⟨hregs, hmem, hstk, hprog⟩ := hfaultNext.frame
    refine ⟨?fetch, fun _ => ?pointer, fun r hr => ?regs, hmem, hstk, hprog, ?port⟩
    case fetch =>
      rintro ⟨v, rfl⟩
      obtain hcheck | hhost := hfaultNext.origin_cases
      · cases hcheck
      · cases hhost
    case pointer => rw [hregs .i (by simp), State.advance_reg_i, BitVec.toNat_add]; rfl
    case regs => rw [hregs r (by simp), State.advance_reg_of_ne s (by simpa using hr)]
    case port =>
      obtain hcheck | hhost := hfaultNext.origin_cases
      · obtain ⟨-, hin, hout, -⟩ := hfaultNext.sameHostPort hcheck
        exact .inl ⟨hout, hin⟩
      · exact .inr (hfaultNext.asked hhost)

/-- Settles O48: an instruction that does not write I leaves the advanced value (`ExecNext.sameRegs`), and the writers
of I are those of `ExecNext.reg_i_cases`. -/
theorem instructionPointerChangesOnlyByThese : Obligations.InstructionPointerChangesOnlyByThese := by
  intro s t hstep hne
  obtain ⟨-, ⟨-, rfl⟩ | ⟨ins, hfetch, -, hnext⟩⟩ := step_next hstep
  · exact absurd rfl hne
  refine ⟨ins, hfetch, ?_⟩
  rw [← State.advance_reg_i s, ← s.advance_reg_of_ne (r := .f) (by decide)]
  by_cases hwrites : Reg.i ∈ Instr.writes s.advance.cfg ins
  · exact hnext.reg_i_cases hwrites
  · exact .inl (hnext.sameRegs .i hwrites)

end Sys2Proof.Machine
end

section
/-! PROOFS. When an instruction fails to end in a next state (spec/45_sys.md R205), and on what its outcome does not
depend: the codes and the layout (spec/10_state.md R23, spec/30_encoding.md R91, R94), and the stack array
(spec/20_memory.md R64). -/
namespace Sys2Proof.Machine

/-! ### How a syscall can end -/

/-- A syscall ends with a result or a fault unless the host leaves its request unanswered or answers outside R190. -/
inductive EndsByHost (s : State) : SysEnd → Prop where
  | returns (v : Byte) (t : State) : EndsByHost s (.returns v t)
  | raises (k : FaultKind) (t : State) : EndsByHost s (.raises k t)
  | silent (req : HostRequest) (h : s.answer req = .silent) : EndsByHost s (.stops (.hostNeverAnswers req))
  | outside (req : HostRequest) (h : s.answer req ≠ .silent) (hout : allowed req (s.answer req) = false) :
      EndsByHost s (.refuses (.hostOutsideContract req (s.answer req)))

theorem doOpen_endsByHost (p : Byte) (s : State) : EndsByHost s (doOpen p s) := by
  obtain ⟨_, -, e⟩ | ⟨_, -, ⟨_, -, -, e⟩ | ⟨_, -, -, e⟩ | ⟨_, -, e⟩ | ⟨ha, e⟩ | ⟨ha, hb, e⟩⟩ := doOpen_cases p s <;>
    rw [e]
  · exact .raises _ _
  · exact .returns _ _
  · exact .raises _ _
  · exact .raises _ _
  · exact .silent _ ha
  · exact .outside _ ha hb

theorem doReadCode_endsByHost (fd start count : Byte) (s : State) : EndsByHost s (doReadCode fd start count s) := by
  obtain ⟨-, e⟩ | ⟨-, -, req, -, ⟨_, _, -, -, -, e⟩ | ⟨_, _, -, -, -, e⟩ | ⟨_, -, e⟩ | ⟨ha, e⟩ | ⟨ha, hb, e⟩⟩ :=
    doReadCode_cases fd start count s <;> rw [e]
  · exact .raises _ _
  · exact .returns _ _
  · exact .raises _ _
  · exact .raises _ _
  · exact .silent _ ha
  · exact .outside _ ha hb

theorem doReadMemory_endsByHost (fd start count : Byte) (s : State) :
    EndsByHost s (doReadMemory fd start count s) := by
  obtain ⟨-, e⟩ | ⟨-, req, -, ⟨_, -, -, e⟩ | ⟨_, -, e⟩ | ⟨ha, e⟩ | ⟨ha, hb, e⟩⟩ :=
    doReadMemory_cases fd start count s <;> rw [e]
  · exact .raises _ _
  · exact .returns _ _
  · exact .raises _ _
  · exact .silent _ ha
  · exact .outside _ ha hb

theorem doWrite_endsByHost (fd start size : Byte) (s : State) : EndsByHost s (doWrite fd start size s) := by
  obtain ⟨-, e⟩ | ⟨-, req, -, ⟨_, -, -, e⟩ | ⟨_, -, e⟩ | ⟨ha, e⟩ | ⟨ha, hb, e⟩⟩ := doWrite_cases fd start size s <;>
    rw [e]
  · exact .raises _ _
  · exact .returns _ _
  · exact .raises _ _
  · exact .silent _ ha
  · exact .outside _ ha hb

theorem doSleep_endsByHost (secs : Byte) (s : State) : EndsByHost s (doSleep secs s) := by
  obtain ⟨-, e⟩ | ⟨ha, e⟩ | ⟨ha, hb, e⟩ := doSleep_cases secs s <;> rw [e]
  · exact .returns _ _
  · exact .silent _ ha
  · exact .outside _ ha hb

/-! ### How an instruction can end -/

theorem exists_requireReg_next (op : Opcode) (pos : OperandPos) (x : Option Reg) (s : State) {k : Reg → Result}
    (h : ∀ r, ∃ t, k r = .next t) : ∃ t, requireReg op pos x s k = .next t := by
  cases x with
  | none => exact ⟨_, rfl⟩
  | some r => exact h r

theorem exists_requireTwo_next (op : Opcode) (x y : Option Reg) (s : State) {k : Reg → Reg → Result}
    (h : ∀ r q, ∃ t, k r q = .next t) : ∃ t, requireTwo op x y s k = .next t :=
  exists_requireReg_next op .arg1 x s fun r => exists_requireReg_next op .arg2 y s (h r)

/-- A half of STK that stops raises a fault, and a fault is a next state. -/
theorem exists_execStk_next (x y : Option Reg) (s : State) : ∃ t, execStk x y s = .next t := by
  unfold execStk
  cases pushHalf y s with
  | error k => exact ⟨_, rfl⟩
  | ok pushed =>
    cases hpop : popHalf x pushed with
    | error k => exact ⟨s.latch (.faulted k), by simp [hpop, raise]⟩
    | ok popped => exact ⟨popped, by simp [hpop]⟩

/-- Every instruction but SYS ends in a next state, whatever the host does. -/
theorem exists_exec_next_of_ne_sys {i : Instr} (hop : i.opcode ≠ .sys) (s : State) : ∃ t, exec i s = .next t := by
  cases i with
  | imm x v => exact exists_requireReg_next _ _ x s fun _ => ⟨_, rfl⟩
  | add x y | stm x y | ldm x y | cmp x y => exact exists_requireTwo_next _ x y s fun _ _ => ⟨_, rfl⟩
  | stk x y => exact exists_execStk_next x y s
  | jmp mask x =>
    refine exists_requireReg_next _ _ x s fun r => ?_
    split
    · exact ⟨_, rfl⟩
    · exact ⟨_, rfl⟩
  | sys => exact absurd rfl hop

/-- Past its two checks a SYS that is not EXIT is its syscall, with the result written last. -/
theorem exec_sys_cases (code : Byte) (x : Option Reg) (s : State) :
    (∃ t, exec (.sys code x) s = .next t) ∨
      ∃ r e, x = some r ∧ exec (.sys code x) s = finishSys r e ∧ EndsByHost s e := by
  cases hcode : s.cfg.syscallOf code with
  | none => exact .inl ⟨_, exec_sys_of_syscallOf_none x hcode⟩
  | some n =>
    cases x with
    | none =>
      cases n with
      | exit => exact .inl ⟨s.latch (.halted (s.reg .a)), by simp only [exec_sys, execSys, hcode, halt]⟩
      | openFile | readCode | readMemory | write | sleep => exact .inl ⟨_, exec_sys_none hcode (by decide)⟩
    | some r =>
      simp only [exec_sys, execSys, hcode, requireReg_some]
      cases n with
      | exit => exact .inl ⟨_, rfl⟩
      | openFile => exact .inr ⟨r, _, rfl, rfl, doOpen_endsByHost _ s⟩
      | readCode => exact .inr ⟨r, _, rfl, rfl, doReadCode_endsByHost _ _ _ s⟩
      | readMemory => exact .inr ⟨r, _, rfl, rfl, doReadMemory_endsByHost _ _ _ s⟩
      | write => exact .inr ⟨r, _, rfl, rfl, doWrite_endsByHost _ _ _ s⟩
      | sleep => exact .inr ⟨r, _, rfl, rfl, doSleep_endsByHost _ s⟩

/-- Settles O44: only a SYS that reaches its syscall can stop (`exec_sys_cases`), and how a syscall ends says who
stopped it (`EndsByHost`). -/
theorem onlyTheHostCanStopAnInstruction : Obligations.OnlyTheHostCanStopAnInstruction := by
  intro i s
  by_cases hop : i.opcode = .sys
  case neg => exact .inl (exists_exec_next_of_ne_sys hop s)
  case pos =>
    cases i with
    | sys code x =>
      obtain hnext | ⟨r, e, rfl, hexec, hend⟩ := exec_sys_cases code x s
      · exact .inl hnext
      · rw [hexec]
        cases hend with
        | returns | raises => exact .inl ⟨_, rfl⟩
        | silent req hsilent => exact .inr (.inl ⟨code, r, req, rfl, rfl, hsilent⟩)
        | outside req hanswer hout => exact .inr (.inr ⟨code, r, req, rfl, rfl, hanswer, hout⟩)
    | _ => cases hop

theorem not_allowed_silent (req : HostRequest) : allowed req .silent = false := by cases req <;> rfl

/-- Settles O45: with no script every answer is a free one, which the ranges allow (`freeAnswer_allowed`), so neither
way of stopping an instruction is left. -/
theorem freeAnswersKeepTheContract : Obligations.FreeAnswersKeepTheContract := by
  refine ⟨freeAnswer_allowed, fun i s hscript => ?_⟩
  have hallowed (req : HostRequest) : allowed req (s.answer req) = true := answer_allowed_of_no_script s req hscript
  obtain hnext | ⟨_, _, req, -, -, hsilent⟩ | ⟨_, _, req, -, -, -, hout⟩ := onlyTheHostCanStopAnInstruction i s
  · exact hnext
  · exact absurd (hsilent ▸ hallowed req) (by simp [not_allowed_silent])
  · exact absurd (hallowed req) (by simp [hout])

end Sys2Proof.Machine
end

section
/-! PROOFS. Non-interference (spec/10_state.md R23, spec/30_encoding.md R91 and R94, spec/20_memory.md R64): a state
whose codes and layout, or whose stack array, are replaced runs an instruction to the same outcome with the same parts
replaced. One commutation serves both statements; it fails only for the instruction that uses the part: READ_CODE
decodes, and STK reads the stack array. -/
namespace Sys2Proof.Machine

/-- `Constants` with other register codes, opcode codes and layout. The flags and the syscall map stay. -/
def recode (reg : RegCodes) (op : OpCodes) (layout : Layout) (C : Constants) : Constants :=
  { C with reg := reg, op := op, layout := layout }

/-- What a replacement of the configuration must leave: the flag bits and the syscall map, which meanings use. -/
structure KeepsMeanings (g : Constants → Constants) : Prop where
  flag : ∀ C, (g C).flag = C.flag
  sys : ∀ C, (g C).sys = C.sys

theorem keepsMeanings_recode (reg : RegCodes) (op : OpCodes) (layout : Layout) :
    KeepsMeanings (recode reg op layout) := ⟨fun _ => rfl, fun _ => rfl⟩

theorem keepsMeanings_id : KeepsMeanings id := ⟨fun _ => rfl, fun _ => rfl⟩

/-- The state with its configuration and its stack array replaced. -/
def State.replace (g : Constants → Constants) (h : Memory → Memory) (s : State) : State :=
  { s with cfg := g s.cfg, stk := h s.stk }

/-- The end of a syscall with its state replaced. -/
def SysEnd.mapState (f : State → State) : SysEnd → SysEnd
  | .returns v s => .returns v (f s)
  | .raises k s => .raises k (f s)
  | .stops r => .stops r
  | .refuses r => .refuses r

section
variable (g : Constants → Constants) (h : Memory → Memory) (s : State)

/-! ### The shared operations -/

@[simp] theorem State.replace_cfg : (s.replace g h).cfg = g s.cfg := rfl
@[simp] theorem State.replace_answer (req : HostRequest) : (s.replace g h).answer req = s.answer req := rfl
@[simp] theorem State.replace_readCString (a : Byte) : (s.replace g h).readCString a = s.readCString a := rfl
@[simp] theorem State.replace_memReadRange (a n : Nat) : (s.replace g h).memReadRange a n = s.memReadRange a n := rfl
@[simp] theorem State.replace_id_cfg : (s.replace id h).cfg = s.cfg := rfl
@[simp] theorem State.replace_reg (r : Reg) : (s.replace g h).reg r = s.reg r := rfl
@[simp] theorem State.replace_afterRequest (req : HostRequest) :
    (s.replace g h).afterRequest req = (s.afterRequest req).replace g h := rfl

theorem memWriteRange_replace (start : Nat) (bytes : List Byte) :
    (s.replace g h).memWriteRange start bytes = (s.memWriteRange start bytes).map (State.replace g h) := by
  unfold State.memWriteRange
  split <;> rfl

theorem finishSys_mapState (r : Reg) (e : SysEnd) :
    finishSys r (e.mapState (State.replace g h)) = mapNext (State.replace g h) (finishSys r e) := by
  cases e <;> rfl

theorem requireReg_replace (op : Opcode) (pos : OperandPos) (x : Option Reg) {k k' : Reg → Result}
    (hk : ∀ r, k' r = mapNext (State.replace g h) (k r)) :
    requireReg op pos x (s.replace g h) k' = mapNext (State.replace g h) (requireReg op pos x s k) := by
  cases x with
  | none => rfl
  | some r => exact hk r

theorem requireTwo_replace (op : Opcode) (x y : Option Reg) {k k' : Reg → Reg → Result}
    (hk : ∀ r q, k' r q = mapNext (State.replace g h) (k r q)) :
    requireTwo op x y (s.replace g h) k' = mapNext (State.replace g h) (requireTwo op x y s k) :=
  requireReg_replace g h s op .arg1 x fun r => requireReg_replace g h s op .arg2 y (hk r)

/-! ### The syscalls -/

theorem doOpen_replace (p : Byte) : doOpen p (s.replace g h) = (doOpen p s).mapState (State.replace g h) := by
  unfold doOpen
  rw [State.replace_readCString]
  cases s.readCString p with
  | error k => rfl
  | ok path =>
    simp only [State.replace_answer, State.replace_afterRequest]
    cases s.answer (.openFile path) with
    | opened fd => dsimp only; split <;> rfl
    | _ => rfl

/-- READ_CODE decodes under the configuration, so only the stack array may be replaced. -/
theorem doReadCode_replace (fd start count : Byte) :
    doReadCode fd start count (s.replace id h) = (doReadCode fd start count s).mapState (State.replace id h) := by
  unfold doReadCode
  simp only [State.replace_answer, State.replace_afterRequest]
  by_cases hrange : outOfRange start.toNat count.toNat = true
  · simp only [if_pos hrange]; rfl
  by_cases hgap : s.progLen < start.toNat
  · have hgap' : (s.replace id h).progLen < start.toNat := hgap
    simp only [if_neg hrange, if_pos hgap, if_pos hgap']; rfl
  have hgap' : ¬(s.replace id h).progLen < start.toNat := hgap
  simp only [if_neg hrange, if_neg hgap, if_neg hgap']
  cases s.answer (.readFile fd (3 * count.toNat)) with
  | data bytes =>
    by_cases hlong : 3 * count.toNat < bytes.length
    · simp only [if_pos hlong]; rfl
    simp only [if_neg hlong, State.replace_id_cfg]
    cases decodeStream (s.afterRequest (.readFile fd (3 * count.toNat))).cfg bytes <;> rfl
  | _ => rfl

theorem doReadMemory_replace (fd start count : Byte) :
    doReadMemory fd start count (s.replace g h) = (doReadMemory fd start count s).mapState (State.replace g h) := by
  unfold doReadMemory
  simp only [State.replace_answer, State.replace_afterRequest]
  split
  · rfl
  cases s.answer (.readFile fd count.toNat) with
  | data bytes =>
    dsimp only
    split
    · rfl
    rw [memWriteRange_replace]
    cases (s.afterRequest (.readFile fd count.toNat)).memWriteRange start.toNat bytes <;> rfl
  | _ => rfl

theorem doWrite_replace (fd start size : Byte) :
    doWrite fd start size (s.replace g h) = (doWrite fd start size s).mapState (State.replace g h) := by
  unfold doWrite
  rw [State.replace_memReadRange]
  cases s.memReadRange start.toNat size.toNat with
  | error k => rfl
  | ok data =>
    simp only [State.replace_answer, State.replace_afterRequest]
    cases s.answer (.writeFile fd data) with
    | wrote k => dsimp only; split <;> rfl
    | _ => rfl

theorem doSleep_replace (secs : Byte) :
    doSleep secs (s.replace g h) = (doSleep secs s).mapState (State.replace g h) := by
  unfold doSleep
  simp only [State.replace_answer, State.replace_afterRequest]
  cases s.answer (.sleep secs) <;> rfl

/-! ### STK -/

/-- The push reads no cell and the pop reads one, so only the configuration may be replaced. -/
theorem push_replace (v : Byte) : (s.replace g id).push v = (s.push v).map (State.replace g id) := by
  cases hpush : s.push v with
  | error k =>
    obtain ⟨hp, hs, rfl⟩ := push_error_iff.mp hpush
    exact push_error_iff.mpr ⟨hp, hs, rfl⟩
  | ok t =>
    obtain ⟨hbound, rfl⟩ := push_ok_iff.mp hpush
    exact push_ok_iff.mpr ⟨hbound, rfl⟩

theorem pop_replace (rd : Reg) : (s.replace g id).pop rd = (s.pop rd).map (State.replace g id) := by
  cases hpop : s.pop rd with
  | error k =>
    obtain ⟨hp, hs, rfl⟩ := pop_error_iff.mp hpop
    exact pop_error_iff.mpr ⟨hp, hs, rfl⟩
  | ok t =>
    obtain ⟨hbound, rfl⟩ := pop_ok_iff.mp hpop
    exact pop_ok_iff.mpr ⟨hbound, rfl⟩

theorem pushHalf_replace (x : Option Reg) :
    pushHalf x (s.replace g id) = (pushHalf x s).map (State.replace g id) := by
  cases x with
  | none => rfl
  | some r => exact push_replace g s (s.reg r)

theorem popHalf_replace (x : Option Reg) : popHalf x (s.replace g id) = (popHalf x s).map (State.replace g id) := by
  cases x with
  | none => rfl
  | some rd => exact pop_replace g s rd

theorem execStk_replace (x y : Option Reg) :
    execStk x y (s.replace g id) = mapNext (State.replace g id) (execStk x y s) := by
  unfold execStk
  rw [pushHalf_replace]
  cases pushHalf y s with
  | error k => rfl
  | ok pushed =>
    simp only [Except.map, popHalf_replace]
    cases popHalf x pushed <;> rfl

end

/-! ### The instructions -/

theorem cmpFlags_congr {C D : Constants} (hflag : D.flag = C.flag) (va vb : Byte) :
    cmpFlags D va vb = cmpFlags C va vb := by
  have hbit (f : Flag) : D.flagBit f = C.flagBit f := by
    cases f <;> simp only [Constants.flagBit, hflag]
  simp only [cmpFlags, hbit]

theorem syscallOf_congr {C D : Constants} (hsys : D.sys = C.sys) (code : Byte) :
    D.syscallOf code = C.syscallOf code := by
  simp only [Constants.syscallOf, Constants.sysCode, hsys]

theorem execSys_replace {g : Constants → Constants} {h : Memory → Memory} (hg : KeepsMeanings g) (code : Byte)
    (x : Option Reg) (s : State) (hcode : s.cfg.syscallOf code ≠ some .readCode ∨ g = id) :
    execSys code x (s.replace g h) = mapNext (State.replace g h) (execSys code x s) := by
  unfold execSys
  rw [State.replace_cfg, syscallOf_congr (hg.sys s.cfg)]
  have hfinish {e e' : Reg → SysEnd} (he : ∀ r, e' r = (e r).mapState (State.replace g h)) :
      requireReg .sys .arg2 x (s.replace g h) (fun r => finishSys r (e' r)) =
        mapNext (State.replace g h) (requireReg .sys .arg2 x s fun r => finishSys r (e r)) :=
    requireReg_replace g h s .sys .arg2 x fun r => by rw [he r, finishSys_mapState]
  cases hn : s.cfg.syscallOf code with
  | none => rfl
  | some n =>
    cases n with
    | exit => rfl
    | openFile => exact hfinish fun _ => doOpen_replace g h s _
    | readCode =>
      obtain rfl := hcode.resolve_left fun hother => hother hn
      exact hfinish fun _ => doReadCode_replace h s _ _ _
    | readMemory => exact hfinish fun _ => doReadMemory_replace g h s _ _ _
    | write => exact hfinish fun _ => doWrite_replace g h s _ _ _
    | sleep => exact hfinish fun _ => doSleep_replace g h s _

/-- Whatever is replaced, an instruction that does not use it does the same. STK uses the stack array and READ_CODE the
codes and the layout. -/
theorem exec_replace {g : Constants → Constants} {h : Memory → Memory} (hg : KeepsMeanings g) (i : Instr) (s : State)
    (hstk : i.opcode = .stk → h = id)
    (hcode : (∀ code r, i = .sys code r → s.cfg.syscallOf code ≠ some .readCode) ∨ g = id) :
    exec i (s.replace g h) = mapNext (State.replace g h) (exec i s) := by
  cases i with
  | imm x v => exact requireReg_replace g h s _ _ x fun _ => rfl
  | add x y | stm x y | ldm x y => exact requireTwo_replace g h s _ x y fun _ _ => rfl
  | cmp x y =>
    refine requireTwo_replace g h s _ x y fun r q => ?_
    rw [State.replace_cfg, cmpFlags_congr (hg.flag s.cfg)]
    rfl
  | jmp mask x =>
    refine requireReg_replace g h s _ _ x fun r => ?_
    rw [State.replace_reg]
    cases jumpTaken (s.reg .f) mask <;> rfl
  | stk x y =>
    obtain rfl := hstk rfl
    exact execStk_replace g s x y
  | sys code x => exact execSys_replace hg code x s (hcode.imp_left fun hother => hother code x rfl)

/-! ### The obligations -/

/-- Settles O11: the codes and the layout are the part of the configuration that no meaning uses, READ_CODE apart
(`exec_replace`, with the stack array left as it is). -/
theorem codesDoNotChangeMeanings : Obligations.CodesDoNotChangeMeanings :=
  fun s i reg op layout hother =>
    exec_replace (keepsMeanings_recode reg op layout) i s (h := id) (fun _ => rfl) (.inl hother)

/-- Settles O50: no other instruction writes the array (`ExecNext.stk_eq`), and with any other contents it does the same
(`exec_replace`, with the configuration left as it is). -/
theorem onlyStkReachesTheStack : Obligations.OnlyStkReachesTheStack :=
  fun i s other hop => ⟨fun _ hexec => (exec_next hexec).stk_eq hop,
    exec_replace keepsMeanings_id i s (h := fun _ => other) (fun hstk => absurd hstk hop) (.inr rfl)⟩

end Sys2Proof.Machine
end

section
/-! PROOFS. The validation of `Constants` (spec/70_reset_and_hazards.md R262) in the words of its five checks, the slots
of a valid register map (spec/10_state.md R23), and construction (R38, R260). -/
namespace Sys2Proof.Machine

/-! ### The five checks -/

theorem singleBit_iff {v : Byte} : singleBit v = true ↔ ∃ k, k < 8 ∧ v = BitVec.ofNat 8 (2 ^ k) := by
  simp [singleBit]

/-- A code map on a list of all names has distinct codes exactly when it is injective. -/
theorem nodup_map_iff {α : Type} {l : List α} {f : α → Byte} (hall : ∀ x, x ∈ l) (hnodup : l.Nodup) :
    (l.map f).Nodup ↔ ∀ x y, x ≠ y → f x ≠ f y := by
  rw [List.nodup_map_iff_inj_on hnodup]
  exact ⟨fun h x y hne he => hne (h x (hall x) y (hall y) he), fun h x _ y _ => not_imp_not.mp (h x y)⟩

theorem regsValid_iff {C : Constants} : regsValid C = true ↔
    (∀ r, ∃ k, k < 8 ∧ C.regCode r = BitVec.ofNat 8 (2 ^ k)) ∧ ∀ r q, r ≠ q → C.regCode r ≠ C.regCode q := by
  rw [regsValid, Bool.and_eq_true, distinct, decide_eq_true_eq, nodup_map_iff Reg.mem_all (by decide)]
  simp [Reg.mem_all, singleBit_iff]

theorem flagsValid_iff {C : Constants} : flagsValid C = true ↔
    (∀ f, ∃ k, k < 8 ∧ C.flagBit f = BitVec.ofNat 8 (2 ^ k)) ∧ ∀ f h, f ≠ h → C.flagBit f ≠ C.flagBit h := by
  rw [flagsValid, Bool.and_eq_true, distinct, decide_eq_true_eq, nodup_map_iff Flag.mem_all (by decide)]
  simp [Flag.mem_all, singleBit_iff]

theorem opsValid_iff {C : Constants} : opsValid C = true ↔ ∀ m n, m ≠ n → C.opCode m ≠ C.opCode n := by
  rw [opsValid, distinct, decide_eq_true_eq, nodup_map_iff Opcode.mem_all (by decide)]

/-- The names a syscall map must hold. -/
def sysNames : List SysKey := Syscall.all.map .known

theorem mem_sysNames {key : SysKey} : key ∈ sysNames ↔ ∃ n, key = .known n := by
  simp [sysNames, Syscall.mem_all, eq_comm]

/-- Six entries that hold the six names hold nothing else and nothing twice (log 9). -/
theorem sysValid_iff_perm {C : Constants} :
    sysValid C = true ↔ (C.sys.map Prod.fst).Perm sysNames ∧ (C.sys.map Prod.snd).Nodup := by
  have hlength : sysNames.length = 6 := rfl
  have hcheck : sysValid C = true ↔
      (C.sys.length = 6 ∧ sysNames ⊆ C.sys.map Prod.fst) ∧ (C.sys.map Prod.snd).Nodup := by
    simp [sysValid, distinct, sysNames, Syscall.all]
  rw [hcheck, and_congr_left_iff]
  refine fun _ => ⟨fun ⟨hsix, hnames⟩ => ?perm, fun hperm => ⟨?six, hperm.symm.subset⟩⟩
  case perm =>
    have hsub : sysNames.Subperm (C.sys.map Prod.fst) := List.subperm_of_subset (by decide) hnames
    exact (hsub.perm_of_length_le (by rw [List.length_map, hsix, hlength])).symm
  case six => rw [← List.length_map (f := Prod.fst), hperm.length_eq, hlength]

/-- Names listed once each are the six names exactly when none is missing and no other is listed. -/
theorem names_perm_iff {C : Constants} : (C.sys.map Prod.fst).Perm sysNames ↔
    (C.sys.map Prod.fst).Nodup ∧ (∀ n, ∃ v, (SysKey.known n, v) ∈ C.sys) ∧ ∀ e ∈ C.sys, ∃ n, e.1 = SysKey.known n := by
  have hsix : sysNames.Nodup := by decide
  have hlisted (n : Syscall) : .known n ∈ C.sys.map Prod.fst ↔ ∃ v, (SysKey.known n, v) ∈ C.sys := by simp
  refine ⟨fun hperm => ⟨hperm.nodup_iff.mpr hsix, fun n => ?listed, fun e he => ?known⟩, fun ⟨honce, hall, honly⟩ =>
    (List.perm_ext_iff_of_nodup honce hsix).mpr fun key => ⟨fun hkey => ?only, fun hkey => ?all⟩⟩
  case listed => exact (hlisted n).mp (hperm.symm.subset (mem_sysNames.mpr ⟨n, rfl⟩))
  case known => exact mem_sysNames.mp (hperm.subset (List.mem_map_of_mem he))
  case only =>
    obtain ⟨e, he, rfl⟩ := List.mem_map.mp hkey
    exact mem_sysNames.mpr (honly e he)
  case all =>
    obtain ⟨n, rfl⟩ := mem_sysNames.mp hkey
    exact (hlisted n).mpr (hall n)

theorem sysValid_iff {C : Constants} : sysValid C = true ↔
    (∀ n, ∃ v, (SysKey.known n, v) ∈ C.sys) ∧ (∀ e ∈ C.sys, ∃ n, e.1 = SysKey.known n) ∧
      C.sys.Pairwise fun x y => x.1 ≠ y.1 ∧ x.2 ≠ y.2 := by
  rw [sysValid_iff_perm, names_perm_iff, List.pairwise_and_iff, List.Nodup, List.Nodup, List.pairwise_map,
    List.pairwise_map]
  tauto

theorem layoutValid_iff {C : Constants} :
    layoutValid C = true ↔ [C.layout.pOp, C.layout.pArg1, C.layout.pArg2].Perm [0, 1, 2] := by
  refine ⟨fun h => ?_, fun hperm => ?_⟩
  · have hcases := layoutValid_cases h
    revert hcases
    generalize [C.layout.pOp, C.layout.pArg1, C.layout.pArg2] = l
    intro hcases
    simp only [List.mem_cons, List.not_mem_nil, or_false] at hcases
    obtain rfl | rfl | rfl | rfl | rfl | rfl := hcases <;> decide
  · simp only [layoutValid, List.all_eq_true, List.contains_iff_mem]
    exact fun p hp => hperm.symm.subset hp

theorem step_of_faulted {s : State} {k : FaultKind} (h : s.outcome = .faulted k) :
    step s = .fault (.blockFaulted k) := by
  simp only [step, h]

theorem step_of_halted {s : State} {code : Byte} (h : s.outcome = .halted code) :
    step s = .fault (.blockHalted code) := by
  simp only [step, h]

theorem construct_outcome_of_malformed {C : Constants} (h : configValid C = false) (p : StackPolicy)
    (prog : List Instr) : (State.construct C p prog).outcome = .faulted (.decodeError .config) :=
  if_neg (by rw [h]; decide)

theorem construct_outcome_of_valid {C : Constants} (h : configValid C = true) (p : StackPolicy) (prog : List Instr) :
    (State.construct C p prog).outcome = .running := if_pos h

/-- Settles O9: one equivalence per check, and construction's latch stops the step. -/
theorem configurationValidation : Obligations.ConfigurationValidation := by
  intro C
  refine ⟨?checks, fun hbad p prog => ?stopped⟩
  case checks =>
    rw [← regsValid_iff, ← flagsValid_iff, ← opsValid_iff, ← sysValid_iff, ← layoutValid_iff]
    simp only [configValid, Bool.and_eq_true, and_assoc]
  case stopped =>
    have hlatch := construct_outcome_of_malformed hbad p prog
    exact ⟨hlatch, step_of_faulted hlatch⟩

/-! ### Slots -/

/-- The trailing zeros of a single bit (R23). -/
theorem slotOf_eq_of_regCode {C : Constants} {r : Reg} {k : Nat} (hk : k < 8)
    (hcode : C.regCode r = BitVec.ofNat 8 (2 ^ k)) : slotOf C r = k := by
  have hbits : ∀ j < 8, ((List.range 8).find? fun i => (BitVec.ofNat 8 (2 ^ j)).getLsbD i).getD 8 = j := by decide
  rw [slotOf, hcode, hbits k hk]

theorem slotOf_spec {C : Constants} (h : regsValid C = true) (r : Reg) :
    slotOf C r < 8 ∧ C.regCode r = BitVec.ofNat 8 (2 ^ slotOf C r) := by
  obtain ⟨hbits, -⟩ := regsValid_iff.mp h
  obtain ⟨k, hk, hcode⟩ := hbits r
  rw [slotOf_eq_of_regCode hk hcode]
  exact ⟨hk, hcode⟩

theorem slotOf_injective {C : Constants} (h : regsValid C = true) {r q : Reg} (heq : slotOf C r = slotOf C q) :
    r = q := by
  obtain ⟨-, hr⟩ := slotOf_spec h r
  obtain ⟨-, hq⟩ := slotOf_spec h q
  exact regCode_injective h (by rw [hr, hq, heq])

/-- Seven registers take seven of the eight positions. -/
theorem exists_unused_slot {C : Constants} (h : regsValid C = true) :
    ∃ k, k < 8 ∧ (∀ r, slotOf C r ≠ k) ∧ ∀ j, j < 8 → (∀ r, slotOf C r ≠ j) → j = k := by
  have hused : (Reg.all.map (slotOf C)).Nodup := List.Nodup.map (fun _ _ => slotOf_injective h) (by decide)
  have hsub : (Reg.all.map (slotOf C)).toFinset ⊆ Finset.range 8 := by
    intro j hj
    obtain ⟨r, -, rfl⟩ := List.mem_map.mp (List.mem_toFinset.mp hj)
    exact Finset.mem_range.mpr (slotOf_spec h r).1
  have hcard : (Finset.range 8 \ (Reg.all.map (slotOf C)).toFinset).card = 1 := by
    rw [Finset.card_sdiff_of_subset hsub, List.toFinset_card_of_nodup hused]
    rfl
  obtain ⟨k, hk⟩ := Finset.card_eq_one.mp hcard
  have hfree (j : Nat) : (j < 8 ∧ ∀ r, slotOf C r ≠ j) ↔ j = k := by
    rw [← Finset.mem_singleton, ← hk]
    simp [Reg.mem_all]
  obtain ⟨hlt, hunused⟩ := (hfree k).mpr rfl
  exact ⟨k, hlt, hunused, fun j hj hj' => (hfree j).mp ⟨hj, hj'⟩⟩

theorem slotValue_slotOf {s : State} (h : regsValid s.cfg = true) (r : Reg) :
    s.slotValue (slotOf s.cfg r) = s.reg r := by
  unfold State.slotValue
  split
  next q hq =>
    have hslot : slotOf s.cfg q = slotOf s.cfg r := by simpa using List.find?_some hq
    rw [slotOf_injective h hslot]
  next hnone =>
    have hall := List.find?_eq_none.mp hnone r (Reg.mem_all r)
    simp at hall

theorem slotValue_unused {s : State} {k : Nat} (h : ∀ r, slotOf s.cfg r ≠ k) : s.slotValue k = 0 := by
  unfold State.slotValue
  split
  next q hq => exact absurd (by simpa using List.find?_some hq) (h q)
  next => rfl

/-- Settles O10. -/
theorem registerSlots : Obligations.RegisterSlots := by
  intro s hvalid
  obtain ⟨k, hk, hunused, honly⟩ := exists_unused_slot hvalid
  exact ⟨slotOf_spec hvalid, fun _ _ => slotOf_injective hvalid, ⟨k, hk, hunused, honly, slotValue_unused hunused⟩,
    slotValue_slotOf hvalid⟩

/-! ### Construction -/

theorem construct_reg (C : Constants) (p : StackPolicy) (prog : List Instr) (r : Reg) :
    (State.construct C p prog).reg r = 0 := by cases r <;> rfl

/-- A slot shows a register or nothing, and both are 0 at construction. -/
theorem construct_slotValue (C : Constants) (p : StackPolicy) (prog : List Instr) (k : Nat) :
    (State.construct C p prog).slotValue k = 0 := by
  unfold State.slotValue
  split
  · exact construct_reg C p prog _
  · rfl

/-- Settles O8. -/
theorem constructionResetValues : Obligations.ConstructionResetValues :=
  fun C p prog => ⟨construct_reg C p prog, construct_slotValue C p prog, State.construct_memByte C p prog,
    fun idx => Memory.read_nil idx.toNat, rfl, rfl, fun h => construct_outcome_of_valid h p prog,
    fun h => construct_outcome_of_malformed h p prog, rfl, rfl, rfl⟩

/-- Settles O58: both arrays and the table are empty, and the latch shows what validation said. -/
theorem constructionMeetsInvariant : Obligations.ConstructionMeetsInvariant := by
  intro C p prog
  refine ⟨Memory.wf_nil, Memory.wf_nil, List.Pairwise.nil, ⟨fun hlatch => ?malformed, fun hbad => ?latched⟩⟩
  case malformed =>
    rw [← Bool.not_eq_true]
    intro hvalid
    cases (construct_outcome_of_valid hvalid p prog).symm.trans hlatch
  case latched => exact construct_outcome_of_malformed hbad p prog

end Sys2Proof.Machine
end

section
/-! PROOFS. The fetch and the step (spec/40_engine.md R130 to R132), the word placed at the fetch (log 7), and the
status port (spec/60_exceptions.md R221). -/
namespace Sys2Proof.Machine

theorem step_of_fetch_none {s : State} (hrun : s.outcome = .running) (hfetch : s.fetch = none) :
    step s = raise (.programCounterOutOfRange (s.reg .i)) s := by
  simp only [step, hrun, hfetch]

theorem step_of_fetch_some {s : State} {ins : Instr} (hrun : s.outcome = .running) (hfetch : s.fetch = some ins) :
    step s = exec ins s.advance := by
  simp only [step, hrun, hfetch]

/-- Settles O14: I is a byte, so the fetch sees the first 256 entries (R131), and beyond the store it faults before the
advance. -/
theorem fetchBeyondProgramFaults : Obligations.FetchBeyondProgramFaults := by
  intro s
  refine ⟨fun _ => rfl, (List.getElem?_take_of_lt (s.reg .i).isLt).symm, fun hrun hbeyond => ?_⟩
  rw [step_of_fetch_none hrun (List.getElem?_eq_none hbeyond)]
  exact exists_faultedOnly_of_raise _ s

/-- Settles O12: the advance is one write of I (`setReg_frame`). -/
theorem stepRunsFetchedInstruction : Obligations.StepRunsFetchedInstruction := by
  intro s ins hrun hfetch
  refine ⟨step_of_fetch_some hrun hfetch, ?_, setReg_frame s .i (s.reg .i + 1)⟩
  rw [State.advance_reg_i, BitVec.toNat_add]
  rfl

theorem withFetchWord_of_decode {s : State} {nbits w : Nat} {ins : Instr}
    (h : decodeWordWith s.cfg nbits w = some ins) : s.withFetchWord nbits w = s.placeAtFetch ins := by
  simp only [State.withFetchWord, h]

/-- Settles O13: the placed instruction is the one fetched (`fetch_placeAtFetch`), and placing changes the store and the
latch only. -/
theorem placedWordIsWhatStepRuns : Obligations.PlacedWordIsWhatStepRuns := by
  intro s nbits w ins hdecode
  rw [withFetchWord_of_decode hdecode]
  exact ⟨step_of_fetch_some rfl (fetch_placeAtFetch s ins), rfl, fun _ => placeAtFetch_getElem? s ins,
    fun _ _ => rfl, fun _ => rfl, fun _ => rfl, ⟨rfl, rfl⟩, rfl, rfl, rfl, rfl⟩

/-- Settles O15. -/
theorem stoppedBlockTakesNoStep : Obligations.StoppedBlockTakesNoStep :=
  fun _ => ⟨fun _ => step_of_halted, fun _ => step_of_faulted⟩

/-- Settles O57: each code is one equation of `Latch.statusCode`. -/
theorem statusCodes : Obligations.StatusCodes :=
  ⟨rfl, fun _ => rfl, fun _ => rfl, fun _ _ => rfl, fun _ => rfl, fun _ => rfl, fun _ _ => rfl, fun _ => rfl,
    fun _ => rfl, fun _ => rfl, fun _ => rfl⟩

end Sys2Proof.Machine
end

section
/-! PROOFS. STK in each of its forms (spec/42_stk.md R162, R163), the arrays as plain storage (spec/20_memory.md R67)
and the round trip of STM and LDM (spec/43_stm_ldm.md). -/
namespace Sys2Proof.Machine

/-! ### STK -/

/-- The move's frame: the pointer comes back, so only the destination and one cell differ (R162). -/
theorem exists_exec_stk_move_frame {s : State} (rd r : Reg) (h : s.policy = .wrap ∨ s.reg .s ≠ 0xFF) :
    ∃ t, exec (.stk (some rd) (some r)) s = .next t ∧ t.reg rd = s.reg r ∧
      (∀ idx, t.stkByte idx = if idx = s.reg .s then s.reg r else s.stkByte idx) ∧
      SameRegs [rd] s t ∧ SameMem s t ∧ SameRest s t := by
  rw [exec_stk, execStk_move rd r s (not_checked_and_eq h)]
  refine ⟨_, rfl, State.reg_setReg_self _ rd _, fun idx => ?cells, fun q hq => ?regs, fun _ => rfl,
    rfl, rfl, ⟨rfl, rfl⟩, rfl, rfl, rfl, rfl⟩
  case cells => simp only [State.setReg_stkByte, State.stkByte_setStkByte]
  case regs =>
    rw [State.reg_setReg_of_ne _ (by simpa using hq)]
    by_cases hs : q = .s
    · rw [hs, State.reg_setReg_self]
    · rw [State.reg_setReg_of_ne _ hs, State.reg_setReg_of_ne _ hs, State.setStkByte_reg]

/-- Settles O20: the four forms are nothing, a push (`stkByte_of_push`, `push_frame`), a pop (`pop_frame`) and a move
(`exists_exec_stk_move_frame`). -/
theorem stkCompletesInEveryForm : Obligations.StkCompletesInEveryForm := by
  intro s
  refine ⟨rfl, fun x hbound => ?push, fun rd hbound => ?pop, fun rd x hbound => ?move⟩
  case push =>
    obtain ⟨t, hpush⟩ := exists_push_ok (s.reg x) hbound
    exact ⟨t, exec_stk_of_push hpush, by rw [stkByte_of_push hpush, if_pos rfl], reg_s_of_push hpush,
      fun idx hidx => by rw [stkByte_of_push hpush, if_neg hidx], push_frame hpush⟩
  case pop =>
    obtain ⟨t, hpop⟩ := exists_pop_ok rd hbound
    exact ⟨t, exec_stk_of_pop hpop, reg_dst_of_pop hpop, reg_s_of_pop hpop, pop_frame hpop⟩
  case move =>
    obtain ⟨t, hexec, hrd, hcell, hframe⟩ := exists_exec_stk_move_frame rd x hbound
    exact ⟨t, hexec, hrd, by rw [hcell, if_pos rfl], fun idx hidx => by rw [hcell, if_neg hidx], hframe⟩

/-- Settles O21: the push is tried first (`execStk_overflow`), and the pop alone has the other bound
(`execStk_underflow`). -/
theorem stkBoundsUnderChecked : Obligations.StkBoundsUnderChecked := by
  intro s hp
  exact ⟨fun hs rd x => ⟨_, execStk_overflow rd x s hp hs, faultedOnly_latch _ s⟩,
    fun hs rd => ⟨_, execStk_underflow rd s hp hs, faultedOnly_latch _ s⟩⟩

/-! ### The arrays -/

/-- Settles O28. -/
theorem arraysArePlainStorage : Obligations.ArraysArePlainStorage :=
  fun s a b v => ⟨s.memByte_setMemByte a b v, s.stkByte_setStkByte a b v, s.setMemByte_stkByte a v,
    s.setStkByte_memByte a v⟩

/-- Settles O26: the load reads the cell the store wrote (`memByte_setMemByte_self`), since the store writes no
register. -/
theorem storeThenLoadReturnsValue : Obligations.StoreThenLoadReturnsValue := by
  intro s p v rd q haddr
  refine ⟨s.setMemByte (s.reg p) (s.reg v), _, by rw [exec_stm, requireTwo_some_some],
    by rw [exec_ldm, requireTwo_some_some], ?_⟩
  rw [State.reg_setReg_self, State.setMemByte_reg, haddr, State.memByte_setMemByte_self]

end Sys2Proof.Machine
end

section
/-! PROOFS. The flags one by one (spec/10_state.md R29 to R31): the new F is a union of patterns, so a mask meets it
exactly where it meets a pattern whose condition holds, and a valid flag map gives each flag a bit of its own. -/
namespace Sys2Proof.Machine

/-! ### A mask and a union of patterns -/

theorem or_and_ne_zero_iff {x y m : Byte} : (x ||| y) &&& m ≠ 0 ↔ x &&& m ≠ 0 ∨ y &&& m ≠ 0 := by
  have hdistrib : (x ||| y) &&& m = x &&& m ||| y &&& m := by
    ext i
    simp [Bool.and_or_distrib_right]
  rw [hdistrib]
  exact (not_congr BitVec.or_eq_zero_iff).trans not_and_or

theorem bitsIf_and_ne_zero_iff {p : Prop} [Decidable p] {v m : Byte} : bitsIf p v &&& m ≠ 0 ↔ p ∧ v &&& m ≠ 0 := by
  by_cases hp : p
  · rw [bitsIf_of_pos hp, and_iff_right hp]
  · rw [bitsIf_of_neg hp]
    simp [hp]

/-- Which patterns a mask can meet in the F that CMP computes. -/
theorem cmpFlags_and_ne_zero_iff {C : Constants} {va vb m : Byte} : cmpFlags C va vb &&& m ≠ 0 ↔
    (va < vb ∧ (C.flagBit .l &&& m ≠ 0 ∨ C.flagBit .n &&& m ≠ 0)) ∨
    (vb < va ∧ (C.flagBit .g &&& m ≠ 0 ∨ C.flagBit .n &&& m ≠ 0)) ∨
    (va = vb ∧ C.flagBit .e &&& m ≠ 0) ∨ ((va = 0 ∧ vb = 0) ∧ C.flagBit .z &&& m ≠ 0) := by
  rw [cmpFlags, or_and_ne_zero_iff, or_and_ne_zero_iff, or_and_ne_zero_iff]
  simp only [bitsIf_and_ne_zero_iff, or_and_ne_zero_iff, or_assoc, gt_iff_lt]

theorem flagBit_and_ne_zero_iff {C : Constants} (h : flagsValid C = true) {f k : Flag} :
    C.flagBit f &&& C.flagBit k ≠ 0 ↔ f = k := by
  have hf := singleBit_flagBit h f
  refine ⟨fun hmeet => ?_, ?_⟩
  · by_contra hne
    exact hmeet (singleBit_and_eq_zero hf (singleBit_flagBit h k) fun he => hne (flagBit_injective h he))
  · rintro rfl
    rw [BitVec.and_self]
    exact singleBit_ne_zero hf

/-! ### The obligation -/

/-- Settles O31: under a valid map a flag's bit meets its own patterns only (`flagBit_and_ne_zero_iff`), so what is left
of `cmpFlags_and_ne_zero_iff` is that flag's condition. -/
theorem cmpSetsEachFlagByItsCondition : Obligations.CmpSetsEachFlagByItsCondition := by
  intro C va vb hvalid
  obtain ⟨-, hflags, -, -, -⟩ := configValid_parts hvalid
  have hmeets {f k : Flag} : C.flagBit f &&& C.flagBit k ≠ 0 ↔ f = k := flagBit_and_ne_zero_iff hflags
  have hbit (k : Flag) : cmpFlags C va vb &&& C.flagBit k ≠ 0 ↔
      (va < vb ∧ (.l = k ∨ .n = k)) ∨ (vb < va ∧ (.g = k ∨ .n = k)) ∨ (va = vb ∧ .e = k) ∨
        ((va = 0 ∧ vb = 0) ∧ .z = k) := by
    simp only [cmpFlags_and_ne_zero_iff, hmeets]
  simp only [← BitVec.lt_def]
  refine ⟨?l, ?g, ?e, ?z, ?n, fun bit hdisjoint => ?other⟩
  case l | g | e | z => rw [hbit]; simp
  case n =>
    have hne : va < vb ∨ vb < va ↔ va ≠ vb := by bv_omega
    rw [hbit, ← hne]
    simp
  case other =>
    have hclear (f : Flag) : C.flagBit f &&& bit = 0 := by rw [BitVec.and_comm, hdisjoint f]
    by_contra hmeet
    simpa [hclear] using cmpFlags_and_ne_zero_iff.mp hmeet

end Sys2Proof.Machine
end

section
/-! PROOFS. The syscalls EXIT, OPEN, READ_CODE and SLEEP (spec/45_sys.md R194 to R203): the code and the result operand
are checked first, then ranges and the path, then the one request's answer decides, and the result is written last. -/
namespace Sys2Proof.Machine

/-- Settles O34: the result operand is checked before anything the syscall does (`exec_sys_none`). -/
theorem sysNeedsResultRegister : Obligations.SysNeedsResultRegister := by
  intro s code n hcode hn
  rw [exec_sys_none hcode hn]
  exact exists_faultedOnly_of_raise _ s

/-! ### EXIT -/

theorem exec_sys_exit {s : State} {code : Byte} (x : Option Reg) (h : s.cfg.syscallOf code = some .exit) :
    exec (.sys code x) s = .next (s.latch (.halted (s.reg .a))) := by
  simp only [exec_sys, execSys, h, halt]

/-- Settles O35: EXIT sets the latch alone, and the latch stops the next step (`step_of_halted`). -/
theorem exitHaltsWithCodeInA : Obligations.ExitHaltsWithCodeInA :=
  fun s _ r hcode => ⟨_, exec_sys_exit r hcode, rfl, sameRegs_latch [] s _, fun _ => rfl, fun _ => rfl, rfl, ⟨rfl, rfl⟩,
    sameHostPort_latch s _, step_of_halted rfl⟩

/-! ### OPEN -/

theorem exec_sys_openFile {s : State} {code : Byte} (r : Reg) (h : s.cfg.syscallOf code = some .openFile) :
    exec (.sys code (some r)) s = finishSys r (doOpen (s.reg .a) s) := by
  simp only [exec_sys, execSys, h, requireReg_some]

theorem doOpen_of_error {p : Byte} {s : State} {k : FaultKind} (h : s.readCString p = .error k) :
    doOpen p s = .raises k s := by
  simp only [doOpen, h]

theorem doOpen_of_err {p : Byte} {s : State} {path : List Byte} {e : HostError} (h : s.readCString p = .ok path)
    (hanswer : s.answer (.openFile path) = .err e) :
    doOpen p s = .raises (.hostIoError e) (s.afterRequest (.openFile path)) := by
  simp only [doOpen, h, hanswer, notOk]

theorem doOpen_of_opened {p : Byte} {s : State} {path : List Byte} {fd : Nat} (h : s.readCString p = .ok path)
    (hanswer : s.answer (.openFile path) = .opened fd) (hfd : fd ≤ 255) :
    doOpen p s = .returns (BitVec.ofNat 8 fd) ((s.afterRequest (.openFile path)).ownFd fd) := by
  simp only [doOpen, h, hanswer, if_neg (Nat.not_lt.mpr hfd)]

theorem doOpen_of_opened_too_high {p : Byte} {s : State} {path : List Byte} {fd : Nat}
    (h : s.readCString p = .ok path) (hanswer : s.answer (.openFile path) = .opened fd) (hfd : 255 < fd) :
    doOpen p s = .raises (.fileDescriptorOverflow fd) ((s.afterRequest (.openFile path)).ownFd fd) := by
  simp only [doOpen, h, hanswer, if_pos hfd]

/-- Settles O37: the descriptor enters the table (`mem_addFd`) and the result register, and the rest is the frame of the
result's write (`setReg_frame`). -/
theorem openReturnsDescriptor : Obligations.OpenReturnsDescriptor := by
  intro s code r path fd hcode hpath hanswer hfd
  rw [exec_sys_openFile r hcode, doOpen_of_opened hpath hanswer hfd, finishSys_returns]
  obtain ⟨hregs, hmem, hstk, -⟩ := setReg_frame ((s.afterRequest (.openFile path)).ownFd fd) r (BitVec.ofNat 8 fd)
  exact ⟨_, rfl, toNat_setReg_ofNat _ r (by omega), hregs, hmem, hstk, rfl, rfl, ⟨rfl, rfl⟩, asked_afterRequest _ s,
    mem_addFd s.fdtable fd⟩

/-- Settles O38: each fault is one rule of OPEN; the descriptor that is too high has entered the table (D17). -/
theorem openFaults : Obligations.OpenFaults := by
  intro s code r hcode
  rw [exec_sys_openFile r hcode]
  refine ⟨fun k hpath => ?unterminated, fun path e hpath hanswer => ?hostError,
    fun path fd hpath hanswer hfd => ?tooHigh⟩
  case unterminated =>
    rw [doOpen_of_error hpath, finishSys_raises]
    exact exists_faultedOnly_of_raise k s
  case hostError =>
    rw [doOpen_of_err hpath hanswer, finishSys_raises]
    exact ⟨_, rfl, faultedAfter_latch_afterRequest _ _ s, rfl⟩
  case tooHigh =>
    rw [doOpen_of_opened_too_high hpath hanswer hfd, finishSys_raises]
    exact ⟨_, rfl, faultedAfter_latch_afterRequest (.openFile path) _ s, mem_addFd s.fdtable fd⟩

/-! ### READ_CODE -/

theorem exec_sys_readCode {s : State} {code : Byte} (r : Reg) (h : s.cfg.syscallOf code = some .readCode) :
    exec (.sys code (some r)) s = finishSys r (doReadCode (s.reg .a) (s.reg .b) (s.reg .c) s) := by
  simp only [exec_sys, execSys, h, requireReg_some]

section
variable {fd start count : Byte} {s : State}

theorem doReadCode_of_out_of_range (h : 256 < start.toNat + count.toNat ∨ s.progLen < start.toNat) :
    doReadCode fd start count s = .raises (.outOfBounds start.toNat count.toNat) s := by
  obtain hrange | hgap := h
  · simp [doReadCode, outOfRange, hrange]
  · simp [doReadCode, hgap]

theorem doReadCode_of_err {e : HostError} (hrange : start.toNat + count.toNat ≤ 256) (hgap : start.toNat ≤ s.progLen)
    (hanswer : s.answer (.readFile fd (3 * count.toNat)) = .err e) :
    doReadCode fd start count s = .raises (.hostIoError e) (s.afterRequest (.readFile fd (3 * count.toNat))) := by
  simp [doReadCode, outOfRange, Nat.not_lt.mpr hrange, Nat.not_lt.mpr hgap, hanswer, notOk]

variable {bytes : List Byte}

theorem doReadCode_of_decode_error {e : DecodeError} (hrange : start.toNat + count.toNat ≤ 256)
    (hgap : start.toNat ≤ s.progLen) (hanswer : s.answer (.readFile fd (3 * count.toNat)) = .data bytes)
    (hlen : bytes.length ≤ 3 * count.toNat) (hdecode : decodeStream s.cfg bytes = .error e) :
    doReadCode fd start count s = .raises (.decodeError e) (s.afterRequest (.readFile fd (3 * count.toNat))) := by
  simp [doReadCode, outOfRange, Nat.not_lt.mpr hrange, Nat.not_lt.mpr hgap, hanswer, Nat.not_lt.mpr hlen, hdecode]

theorem doReadCode_of_decode_ok {is : List Instr} (hrange : start.toNat + count.toNat ≤ 256)
    (hgap : start.toNat ≤ s.progLen) (hanswer : s.answer (.readFile fd (3 * count.toNat)) = .data bytes)
    (hlen : bytes.length ≤ 3 * count.toNat) (hdecode : decodeStream s.cfg bytes = .ok is) :
    doReadCode fd start count s = .returns (BitVec.ofNat 8 is.length)
      ((s.afterRequest (.readFile fd (3 * count.toNat))).putCode start.toNat is) := by
  simp [doReadCode, outOfRange, Nat.not_lt.mpr hrange, Nat.not_lt.mpr hgap, hanswer, Nat.not_lt.mpr hlen, hdecode]

end

/-- Settles O39: the decoded words are put into the store in place (`storeAt_length`, `storeAt_getElem?`), three bytes
for each (`decodeStream_length`), so their number is at most the count and fits the result register. -/
theorem readCodeOverwritesEntries : Obligations.ReadCodeOverwritesEntries := by
  intro s code r bytes is hcode hrange hgap hanswer hlen hdecode
  have hthree : 3 * is.length = bytes.length := decodeStream_length hdecode
  have hcount : (s.reg .c).toNat < 256 := (s.reg .c).isLt
  rw [exec_sys_readCode r hcode, doReadCode_of_decode_ok hrange hgap hanswer hlen hdecode, finishSys_returns]
  obtain ⟨hregs, hmem, hstk, -⟩ := setReg_frame
    ((s.afterRequest (.readFile (s.reg .a) (3 * (s.reg .c).toNat))).putCode (s.reg .b).toNat is) r
    (BitVec.ofNat 8 is.length)
  have hentry := storeAt_getElem? s.prog is hgap
  refine ⟨_, rfl, toNat_setReg_ofNat _ r (by omega), hthree, storeAt_length s.prog is hgap, fun k hk => ?written,
    fun k hk => ?kept, hregs, hmem, hstk, rfl, ⟨rfl, rfl⟩, rfl, asked_afterRequest _ s⟩
  case written => exact (hentry _).trans (by rw [if_pos (by omega), Nat.add_sub_cancel_left])
  case kept => exact (hentry k).trans (if_neg (by omega))

/-- Settles O40: each fault is one rule of READ_CODE, and none of them reaches the write into the store; a length that
is no multiple of 3 is one of the decoder's errors (`decodeStream_of_length`). -/
theorem readCodeFaults : Obligations.ReadCodeFaults := by
  intro s code r hcode
  rw [exec_sys_readCode r hcode]
  refine ⟨fun hout => ?outOfRange, fun hrange hgap => ⟨fun e hanswer => ?hostError, fun bytes hanswer hlen => ?data⟩⟩
  case outOfRange =>
    rw [doReadCode_of_out_of_range hout, finishSys_raises]
    exact exists_faultedOnly_of_raise _ s
  case hostError =>
    rw [doReadCode_of_err hrange hgap hanswer, finishSys_raises]
    exact exists_faultedAfter_of_raise _ _ s
  case data =>
    have hbad (e : DecodeError) (hdecode : decodeStream s.cfg bytes = .error e) :
        ∃ t, finishSys r (doReadCode (s.reg .a) (s.reg .b) (s.reg .c) s) = .next t ∧ t.fdtable = s.fdtable ∧
          FaultedAfter (.readFile (s.reg .a) (3 * (s.reg .c).toNat)) (.decodeError e) s t := by
      rw [doReadCode_of_decode_error hrange hgap hanswer hlen hdecode, finishSys_raises]
      exact exists_faultedAfter_of_raise _ _ s
    exact ⟨fun hpartial => hbad _ (decodeStream_of_length hpartial), hbad⟩

/-! ### SLEEP -/

theorem exec_sys_sleep {s : State} {code : Byte} (r : Reg) (h : s.cfg.syscallOf code = some .sleep) :
    exec (.sys code (some r)) s = finishSys r (doSleep (s.reg .a) s) := by
  simp only [exec_sys, execSys, h, requireReg_some]

theorem doSleep_of_slept {secs : Byte} {s : State} (hanswer : s.answer (.sleep secs) = .slept) :
    doSleep secs s = .returns 0 (s.afterRequest (.sleep secs)) := by
  simp only [doSleep, hanswer]

/-- Settles O43: the result is one register write (`setReg_frame`) after the one request. -/
theorem sleepWritesZero : Obligations.SleepWritesZero := by
  intro s code r hcode hanswer
  rw [exec_sys_sleep r hcode, doSleep_of_slept hanswer, finishSys_returns]
  obtain ⟨hregs, hmem, hstk, -⟩ := setReg_frame (s.afterRequest (.sleep (s.reg .a))) r 0
  exact ⟨_, rfl, State.reg_setReg_self _ r 0, hregs, hmem, hstk, rfl, rfl, ⟨rfl, rfl⟩, rfl, asked_afterRequest _ s⟩

end Sys2Proof.Machine
end
